-- ==== Sys2Proof/Word.lean ====
section
/-! DEFINITION. The word types of the core (00_scope.md R7, R12) and the two pixel values. -/

namespace Sys2Proof

/-- A memory byte, a general register, a timer, the stack pointer (`XLEN`, `SP_BITS`, R7). -/
abbrev Byte := BitVec 8

/-- An instruction word, `pc`, `I`, `ir`, a stack entry (R7). -/
abbrev Word := BitVec 16

/-- The instruction fields `x`, `y`, `n` (R17). A register index is a `Nibble`: all 16 values are legal (R21). -/
abbrev Nibble := BitVec 4

/-- The instruction field `nnn` (R17). -/
abbrev Imm12 := BitVec 12

/-- A framebuffer cell (`PIXEL_BITS`, R7, R31). -/
abbrev Pixel := BitVec 32

/-- `PIXEL_ON`, the lit pixel (R7). -/
abbrev pixelOn : Pixel := 0xFFFFFFFF#32

/-- `PIXEL_OFF`, the dark pixel (R7). -/
abbrev pixelOff : Pixel := 0#32

/-- The index of `VF`, `FLAG_REG` (R7, R22). -/
abbrev flagReg : Nibble := 0xF#4

end Sys2Proof
end

