-- ==== Sys2Proof/Syntax.lean ====
section
/-! DEFINITION. The instructions: one constructor per row of the opcode map (30_encoding.md R66,
spec/opcode_table.json), in the map's order. The fields are the row's fields (R17); the bits a row ignores
are kept as a last field (`ign`), so that an instruction determines its word (assumption log 5). -/

namespace Sys2Proof

inductive Instr where
  /-- Row 1, 00E0 `CLS`; `ign` is bits 11:8. -/
  | cls (ign : Nibble)
  /-- Row 2, 00EE `RET`; `ign` is bits 11:8. -/
  | ret (ign : Nibble)
  /-- Row 3, 0nnn `SYS nnn` (fallback of group 0x0). -/
  | sys (nnn : Imm12)
  /-- Row 4, 1nnn `JP nnn`. -/
  | jp (nnn : Imm12)
  /-- Row 5, 2nnn `CALL nnn`. -/
  | call (nnn : Imm12)
  /-- Row 6, 3xkk `SE Vx, kk`. -/
  | seImm (x : Nibble) (kk : Byte)
  /-- Row 7, 4xkk `SNE Vx, kk`. -/
  | sneImm (x : Nibble) (kk : Byte)
  /-- Row 8, 5xy0 `SE Vx, Vy`; `ign` is bits 3:0. -/
  | seReg (x y : Nibble) (ign : Nibble)
  /-- Row 9, 6xkk `LD Vx, kk`. -/
  | ldImm (x : Nibble) (kk : Byte)
  /-- Row 10, 7xkk `ADD Vx, kk`. -/
  | addImm (x : Nibble) (kk : Byte)
  /-- Row 11, 8xy0 `LD Vx, Vy`. -/
  | ldReg (x y : Nibble)
  /-- Row 12, 8xy1 `OR Vx, Vy`. -/
  | orReg (x y : Nibble)
  /-- Row 13, 8xy2 `AND Vx, Vy`. -/
  | andReg (x y : Nibble)
  /-- Row 14, 8xy3 `XOR Vx, Vy`. -/
  | xorReg (x y : Nibble)
  /-- Row 15, 8xy4 `ADD Vx, Vy`. -/
  | addReg (x y : Nibble)
  /-- Row 16, 8xy5 `SUB Vx, Vy`. -/
  | subReg (x y : Nibble)
  /-- Row 17, 8xy6 `SHR Vx`; `ign` is bits 7:4. -/
  | shr (x : Nibble) (ign : Nibble)
  /-- Row 18, 8xy7 `SUBN Vx, Vy`. -/
  | subnReg (x y : Nibble)
  /-- Row 19, 8xyE `SHL Vx`; `ign` is bits 7:4. -/
  | shl (x : Nibble) (ign : Nibble)
  /-- Row 20, 9xy0 `SNE Vx, Vy`; `ign` is bits 3:0. -/
  | sneReg (x y : Nibble) (ign : Nibble)
  /-- Row 21, Annn `LD I, nnn`. -/
  | ldI (nnn : Imm12)
  /-- Row 22, Bnnn `JP V0, nnn`. -/
  | jpV0 (nnn : Imm12)
  /-- Row 23, Cxkk `RND Vx, kk`. -/
  | rnd (x : Nibble) (kk : Byte)
  /-- Row 24, Dxyn `DRW Vx, Vy, n`. -/
  | drw (x y n : Nibble)
  /-- Row 25, Ex9E `SKP Vx`. -/
  | skp (x : Nibble)
  /-- Row 26, ExA1 `SKNP Vx`. -/
  | sknp (x : Nibble)
  /-- Row 27, Fx07 `LD Vx, DT`. -/
  | ldVxDt (x : Nibble)
  /-- Row 28, Fx0A `LD Vx, K`. -/
  | ldVxK (x : Nibble)
  /-- Row 29, Fx15 `LD DT, Vx`. -/
  | ldDtVx (x : Nibble)
  /-- Row 30, Fx18 `LD ST, Vx`. -/
  | ldStVx (x : Nibble)
  /-- Row 31, Fx1E `ADD I, Vx`. -/
  | addI (x : Nibble)
  /-- Row 32, Fx29 `LD F, Vx`. -/
  | ldF (x : Nibble)
  /-- Row 33, Fx33 `LD B, Vx`. -/
  | ldB (x : Nibble)
  /-- Row 34, Fx55 `LD [I], Vx`. -/
  | stRegs (x : Nibble)
  /-- Row 35, Fx65 `LD Vx, [I]`. -/
  | ldRegs (x : Nibble)
  /-- Row 36, the other words of group 0x8; `ign` is bits 11:0. -/
  | nop8 (ign : Imm12)
  /-- Row 37, the other words of group 0xE; `ign` is bits 11:0. -/
  | nope (ign : Imm12)
  /-- Row 38, the other words of group 0xF; `ign` is bits 11:0. -/
  | nopf (ign : Imm12)
  deriving DecidableEq, Repr

end Sys2Proof
end

