-- ==== Sys2Proof/WellFormed.lean ====
section
/-! DEFINITION. When a term of `Instr` is an instruction of the machine: the term of a fallback row must
not spell a word that a more specific row of its group selects (30_encoding.md R66, R68). Every other term is
well formed: the field types admit exactly the values the encoding has (R62). -/

namespace Sys2Proof

/-- The low byte of a 12-bit field: the sub-opcode of groups 0x0, 0xE and 0xF (R64). -/
def lowByteOf (nnn : Imm12) : Byte := nnn.extractLsb' 0 8

/-- The low nibble of a 12-bit field: the sub-opcode of group 0x8 (R64). -/
def lowNibbleOf (nnn : Imm12) : Nibble := nnn.extractLsb' 0 4

/-- Low bytes with an operation in group 0x0: 00E0, 00EE (R66 rows 1, 2). -/
def group0Ops : List Byte := [0xE0, 0xEE]

/-- Low nibbles with a row of their own in group 0x8 (R66 rows 11 to 19). -/
def group8Ops : List Nibble := [0x0, 0x1, 0x2, 0x3, 0x4, 0x5, 0x6, 0x7, 0xE]

/-- Low bytes with an operation in group 0xE (R66 rows 25, 26). -/
def groupEOps : List Byte := [0x9E, 0xA1]

/-- Low bytes with an operation in group 0xF (R66 rows 27 to 35). -/
def groupFOps : List Byte := [0x07, 0x0A, 0x15, 0x18, 0x1E, 0x29, 0x33, 0x55, 0x65]

/-- The check of one term. -/
def Instr.wellFormed : Instr → Bool
  | .sys nnn => !group0Ops.contains (lowByteOf nnn)
  | .nop8 ign => !group8Ops.contains (lowNibbleOf ign)
  | .nope ign => !groupEOps.contains (lowByteOf ign)
  | .nopf ign => !groupFOps.contains (lowByteOf ign)
  | .cls _ | .ret _ | .jp _ | .call _ | .seImm _ _ | .sneImm _ _ | .seReg _ _ _ => true
  | .ldImm _ _ | .addImm _ _ | .ldReg _ _ | .orReg _ _ | .andReg _ _ | .xorReg _ _ => true
  | .addReg _ _ | .subReg _ _ | .shr _ _ | .subnReg _ _ | .shl _ _ | .sneReg _ _ _ => true
  | .ldI _ | .jpV0 _ | .rnd _ _ | .drw _ _ _ | .skp _ | .sknp _ => true
  | .ldVxDt _ | .ldVxK _ | .ldDtVx _ | .ldStVx _ | .addI _ | .ldF _ | .ldB _ => true
  | .stRegs _ | .ldRegs _ => true

/-- `i` is an instruction of the machine. -/
abbrev Instr.WellFormed (i : Instr) : Prop := i.wellFormed = true

end Sys2Proof
end

