-- ==== Sys2Proof/Decode.lean ====
section
/-! DEFINITION. The decoder and, after it, the encoder, both from the opcode map (30_encoding.md R61 to R66).
`decodeWord` is total: every word selects exactly one row (R66); `decode` reads bytes and rejects by name. -/

namespace Sys2Proof

/-! The field views of a word (00_scope.md R17, 30_encoding.md R61). -/

def fieldGroup (w : Word) : Nibble := w.extractLsb' 12 4
def fieldX (w : Word) : Nibble := w.extractLsb' 8 4
def fieldY (w : Word) : Nibble := w.extractLsb' 4 4
def fieldN (w : Word) : Nibble := w.extractLsb' 0 4
def fieldKk (w : Word) : Byte := w.extractLsb' 0 8
def fieldNnn (w : Word) : Imm12 := w.extractLsb' 0 12

/-- Group 0x0 dispatches on the low byte; bits 11:8 are not examined (R64). -/
def decodeGroup0 (w : Word) : Instr :=
  if fieldKk w = 0xE0#8 then .cls (fieldX w)
  else if fieldKk w = 0xEE#8 then .ret (fieldX w)
  else .sys (fieldNnn w)

/-- Group 0x8 dispatches on the low nibble (R64). -/
def decodeGroup8 (w : Word) : Instr :=
  if fieldN w = 0x0#4 then .ldReg (fieldX w) (fieldY w)
  else if fieldN w = 0x1#4 then .orReg (fieldX w) (fieldY w)
  else if fieldN w = 0x2#4 then .andReg (fieldX w) (fieldY w)
  else if fieldN w = 0x3#4 then .xorReg (fieldX w) (fieldY w)
  else if fieldN w = 0x4#4 then .addReg (fieldX w) (fieldY w)
  else if fieldN w = 0x5#4 then .subReg (fieldX w) (fieldY w)
  else if fieldN w = 0x6#4 then .shr (fieldX w) (fieldY w)
  else if fieldN w = 0x7#4 then .subnReg (fieldX w) (fieldY w)
  else if fieldN w = 0xE#4 then .shl (fieldX w) (fieldY w)
  else .nop8 (fieldNnn w)

/-- Group 0xE dispatches on the low byte (R64). -/
def decodeGroupE (w : Word) : Instr :=
  if fieldKk w = 0x9E#8 then .skp (fieldX w)
  else if fieldKk w = 0xA1#8 then .sknp (fieldX w)
  else .nope (fieldNnn w)

/-- Group 0xF dispatches on the low byte (R64). -/
def decodeGroupF (w : Word) : Instr :=
  if fieldKk w = 0x07#8 then .ldVxDt (fieldX w)
  else if fieldKk w = 0x0A#8 then .ldVxK (fieldX w)
  else if fieldKk w = 0x15#8 then .ldDtVx (fieldX w)
  else if fieldKk w = 0x18#8 then .ldStVx (fieldX w)
  else if fieldKk w = 0x1E#8 then .addI (fieldX w)
  else if fieldKk w = 0x29#8 then .ldF (fieldX w)
  else if fieldKk w = 0x33#8 then .ldB (fieldX w)
  else if fieldKk w = 0x55#8 then .stRegs (fieldX w)
  else if fieldKk w = 0x65#8 then .ldRegs (fieldX w)
  else .nopf (fieldNnn w)

/-- The two-level dispatch of R63 on the top nibble. Groups 0x5 and 0x9 do not look at bits 3:0 (R65). -/
def decodeWord (w : Word) : Instr :=
  match (fieldGroup w).toNat with
  | 0x0 => decodeGroup0 w
  | 0x1 => .jp (fieldNnn w)
  | 0x2 => .call (fieldNnn w)
  | 0x3 => .seImm (fieldX w) (fieldKk w)
  | 0x4 => .sneImm (fieldX w) (fieldKk w)
  | 0x5 => .seReg (fieldX w) (fieldY w) (fieldN w)
  | 0x6 => .ldImm (fieldX w) (fieldKk w)
  | 0x7 => .addImm (fieldX w) (fieldKk w)
  | 0x8 => decodeGroup8 w
  | 0x9 => .sneReg (fieldX w) (fieldY w) (fieldN w)
  | 0xA => .ldI (fieldNnn w)
  | 0xB => .jpV0 (fieldNnn w)
  | 0xC => .rnd (fieldX w) (fieldKk w)
  | 0xD => .drw (fieldX w) (fieldY w) (fieldN w)
  | 0xE => decodeGroupE w
  | _ => decodeGroupF w -- the group is a nibble, so this is group 0xF

/-- The word of two bytes, the byte at the lower address high (20_memory.md R43). -/
def wordOfBytes (hi lo : Byte) : Word := hi ++ lo

/-- The byte of a word at the lower address (R43, R61). -/
def highByte (w : Word) : Byte := w.extractLsb' 8 8

/-- The byte of a word at the higher address (R43, R61). -/
def lowByte (w : Word) : Byte := w.extractLsb' 0 8

/-- Why a byte string holds no instruction: fewer than `ILEN` = 2 bytes (R60). No word is illegal (R68). -/
inductive DecodeError where
  | tooFewBytes
  deriving DecidableEq, Repr

/-- The first instruction of a byte string, and the bytes after it. -/
def decode : List Byte → Except DecodeError (Instr × List Byte)
  | hi :: lo :: rest => .ok (decodeWord (wordOfBytes hi lo), rest)
  | _ => .error .tooFewBytes

/-- The word whose bits are `w`, `nbits` of them, numbered as spec/opcode_table.json numbers them: bits at and
above `nbits` are zero. -/
def tableWord (nbits w : Nat) : Word := BitVec.ofNat 16 (w % 2 ^ nbits)

/-- What the decoder reads from the instruction whose bits are `w`, laid out as memory holds it. -/
def decodeTableWord (nbits w : Nat) : Option Instr :=
  if nbits ≤ 16 then
    match decode [highByte (tableWord nbits w), lowByte (tableWord nbits w)] with
    | .ok (i, _) => some i
    | .error _ => none
  else none

/-! The three layouts of a word that cover its bits (R61). -/

/-- View `nnn`: bits 15:12, 11:0. -/
def layoutNnn (g : Nibble) (nnn : Imm12) : Word := g ++ nnn

/-- View `x kk`: bits 15:12, 11:8, 7:0. -/
def layoutXKk (g x : Nibble) (kk : Byte) : Word := g ++ x ++ kk

/-- View `xy n`: bits 15:12, 11:8, 7:4, 3:0. -/
def layoutXYN (g x y n : Nibble) : Word := g ++ x ++ y ++ n

/-- The word of an instruction: the fixed bits of its row (R66) with its fields in the places of R61. -/
def encode : Instr → Word
  | .cls ign => layoutXKk 0x0#4 ign 0xE0#8
  | .ret ign => layoutXKk 0x0#4 ign 0xEE#8
  | .sys nnn => layoutNnn 0x0#4 nnn
  | .jp nnn => layoutNnn 0x1#4 nnn
  | .call nnn => layoutNnn 0x2#4 nnn
  | .seImm x kk => layoutXKk 0x3#4 x kk
  | .sneImm x kk => layoutXKk 0x4#4 x kk
  | .seReg x y ign => layoutXYN 0x5#4 x y ign
  | .ldImm x kk => layoutXKk 0x6#4 x kk
  | .addImm x kk => layoutXKk 0x7#4 x kk
  | .ldReg x y => layoutXYN 0x8#4 x y 0x0#4
  | .orReg x y => layoutXYN 0x8#4 x y 0x1#4
  | .andReg x y => layoutXYN 0x8#4 x y 0x2#4
  | .xorReg x y => layoutXYN 0x8#4 x y 0x3#4
  | .addReg x y => layoutXYN 0x8#4 x y 0x4#4
  | .subReg x y => layoutXYN 0x8#4 x y 0x5#4
  | .shr x ign => layoutXYN 0x8#4 x ign 0x6#4
  | .subnReg x y => layoutXYN 0x8#4 x y 0x7#4
  | .shl x ign => layoutXYN 0x8#4 x ign 0xE#4
  | .sneReg x y ign => layoutXYN 0x9#4 x y ign
  | .ldI nnn => layoutNnn 0xA#4 nnn
  | .jpV0 nnn => layoutNnn 0xB#4 nnn
  | .rnd x kk => layoutXKk 0xC#4 x kk
  | .drw x y n => layoutXYN 0xD#4 x y n
  | .skp x => layoutXKk 0xE#4 x 0x9E#8
  | .sknp x => layoutXKk 0xE#4 x 0xA1#8
  | .ldVxDt x => layoutXKk 0xF#4 x 0x07#8
  | .ldVxK x => layoutXKk 0xF#4 x 0x0A#8
  | .ldDtVx x => layoutXKk 0xF#4 x 0x15#8
  | .ldStVx x => layoutXKk 0xF#4 x 0x18#8
  | .addI x => layoutXKk 0xF#4 x 0x1E#8
  | .ldF x => layoutXKk 0xF#4 x 0x29#8
  | .ldB x => layoutXKk 0xF#4 x 0x33#8
  | .stRegs x => layoutXKk 0xF#4 x 0x55#8
  | .ldRegs x => layoutXKk 0xF#4 x 0x65#8
  | .nop8 ign => layoutNnn 0x8#4 ign
  | .nope ign => layoutNnn 0xE#4 ign
  | .nopf ign => layoutNnn 0xF#4 ign

/-- The bytes of an instruction as memory holds them (R43). -/
def encodeBytes (i : Instr) : List Byte := [highByte (encode i), lowByte (encode i)]

/-- `MATCH` and `MASK` of a row of the opcode map (R66). -/
structure OpcodeRow where
  pattern : Word
  mask : Word
  deriving DecidableEq, Repr

/-- The word selects the row: `w AND mask = match` (R66). -/
def OpcodeRow.selectedBy (r : OpcodeRow) (w : Word) : Bool := w &&& r.mask == r.pattern

/-- The opcode map, rows 1 to 38 in order: `match` and `mask` as R66 and spec/opcode_table.json print them. -/
def opcodeMap : List OpcodeRow :=
  [⟨0x00E0, 0xF0FF⟩, ⟨0x00EE, 0xF0FF⟩, ⟨0x0000, 0xF000⟩, ⟨0x1000, 0xF000⟩, ⟨0x2000, 0xF000⟩,
   ⟨0x3000, 0xF000⟩, ⟨0x4000, 0xF000⟩, ⟨0x5000, 0xF000⟩, ⟨0x6000, 0xF000⟩, ⟨0x7000, 0xF000⟩,
   ⟨0x8000, 0xF00F⟩, ⟨0x8001, 0xF00F⟩, ⟨0x8002, 0xF00F⟩, ⟨0x8003, 0xF00F⟩, ⟨0x8004, 0xF00F⟩,
   ⟨0x8005, 0xF00F⟩, ⟨0x8006, 0xF00F⟩, ⟨0x8007, 0xF00F⟩, ⟨0x800E, 0xF00F⟩, ⟨0x9000, 0xF000⟩] ++
  [⟨0xA000, 0xF000⟩, ⟨0xB000, 0xF000⟩, ⟨0xC000, 0xF000⟩, ⟨0xD000, 0xF000⟩, ⟨0xE09E, 0xF0FF⟩,
   ⟨0xE0A1, 0xF0FF⟩, ⟨0xF007, 0xF0FF⟩, ⟨0xF00A, 0xF0FF⟩, ⟨0xF015, 0xF0FF⟩, ⟨0xF018, 0xF0FF⟩,
   ⟨0xF01E, 0xF0FF⟩, ⟨0xF029, 0xF0FF⟩, ⟨0xF033, 0xF0FF⟩, ⟨0xF055, 0xF0FF⟩, ⟨0xF065, 0xF0FF⟩,
   ⟨0x8000, 0xF000⟩, ⟨0xE000, 0xF000⟩, ⟨0xF000, 0xF000⟩]

/-- The number of an instruction's row in the opcode map (R66, column `#`). -/
def rowNumber : Instr → Nat
  | .cls _ => 1
  | .ret _ => 2
  | .sys _ => 3
  | .jp _ => 4
  | .call _ => 5
  | .seImm _ _ => 6
  | .sneImm _ _ => 7
  | .seReg _ _ _ => 8
  | .ldImm _ _ => 9
  | .addImm _ _ => 10
  | .ldReg _ _ => 11
  | .orReg _ _ => 12
  | .andReg _ _ => 13
  | .xorReg _ _ => 14
  | .addReg _ _ => 15
  | .subReg _ _ => 16
  | .shr _ _ => 17
  | .subnReg _ _ => 18
  | .shl _ _ => 19
  | .sneReg _ _ _ => 20
  | .ldI _ => 21
  | .jpV0 _ => 22
  | .rnd _ _ => 23
  | .drw _ _ _ => 24
  | .skp _ => 25
  | .sknp _ => 26
  | .ldVxDt _ => 27
  | .ldVxK _ => 28
  | .ldDtVx _ => 29
  | .ldStVx _ => 30
  | .addI _ => 31
  | .ldF _ => 32
  | .ldB _ => 33
  | .stRegs _ => 34
  | .ldRegs _ => 35
  | .nop8 _ => 36
  | .nope _ => 37
  | .nopf _ => 38

/-- The row of the opcode map an instruction belongs to (R66). -/
def rowOf (i : Instr) : OpcodeRow := opcodeMap.getD (rowNumber i - 1) ⟨0, 0⟩

/-- How many bits of a row's mask are one: where two rows match, the row with more wins (R66). -/
def OpcodeRow.specificity (r : OpcodeRow) : Nat :=
  ((List.range 16).filter fun b => r.mask.getLsbD b).length

end Sys2Proof
end

