-- ==== Sys2Proof/Config.lean ====
section
/-! DEFINITION. The configuration of 00_scope.md R8 (the points the spec leaves as parameters, with their
defaults), the fixed parameters of R7 that the loaders use, and the free value of the model, the random byte. -/

namespace Sys2Proof

/-- `OP_8XY0` (R8, R122): what the word 8xy0 does. -/
inductive Op8xy0 where
  | move
  | noop
  deriving DecidableEq, Repr

/-- `BNNN_TARGET` (R8, R98): where Bnnn puts `V[0] + nnn`. -/
inductive BnnnTarget where
  | index
  | pc
  deriving DecidableEq, Repr

/-- `FX65_DIRECTION` (R8, R135): which way Fx65 copies. -/
inductive Fx65Direction where
  | store
  | load
  deriving DecidableEq, Repr

/-- A piece of the state (10_state.md R20) that an `END_OF_RUN` predicate can ask about, as a number. -/
inductive Place where
  | pc
  | I
  | sp
  | dt
  | st
  | ir
  | V (x : Nibble)
  | mem (a : Nat)
  | fb (i : Nat)
  | stack (i : Fin 16)
  /-- 1 while the key is down, else 0. -/
  | keys (k : Fin 16)
  deriving DecidableEq, Repr

/-- `END_OF_RUN` (R8, 70_reset_and_hazards.md R226, D23): a predicate on the states that are not halted, written
as plain data, so that `State` stays plain data (assumption log 36). `Machine.State.meets` says when it holds. -/
inductive EndOfRun where
  /-- The bytes at `pc` are a `JP` to `pc` itself. -/
  | selfJump
  /-- The word at `pc` has these bits under this mask: R226's run that ends waiting in Fx0A. -/
  | fetches (mask pattern : Word)
  /-- A piece of the state has this value. -/
  | holds (p : Place) (v : Nat)
  | both (a b : EndOfRun)
  | either (a b : EndOfRun)
  | neg (a : EndOfRun)
  deriving DecidableEq, Repr

/-- The six parameters of R8. `endOfRun` is a convention of claims: no step reads it (assumption log 11). -/
structure Config where
  /-- `RESET_PC` (R36, D1). -/
  resetPc : Word
  /-- `OP_8XY0` (R122, D4). -/
  op8xy0 : Op8xy0
  /-- `BNNN_TARGET` (R98, D13). -/
  bnnnTarget : BnnnTarget
  /-- `FX65_DIRECTION` (R135, D14). -/
  fx65Direction : Fx65Direction
  /-- `GLYPH_TABLE` (R215, R216, D18). -/
  glyphTable : Vector Byte 80
  /-- `END_OF_RUN` (R226, D23). -/
  endOfRun : EndOfRun
  deriving DecidableEq, Repr

/-- The default `GLYPH_TABLE`, digit by digit, top row first (70_reset_and_hazards.md R216).
PRESUMED by the spec itself (general knowledge, G12): assumption log 16. -/
def defaultGlyphTable : Vector Byte 80 :=
  #v[
    0xF0, 0x90, 0x90, 0x90, 0xF0,
    0x20, 0x60, 0x20, 0x20, 0x70,
    0xF0, 0x10, 0xF0, 0x80, 0xF0,
    0xF0, 0x10, 0xF0, 0x10, 0xF0,
    0x90, 0x90, 0xF0, 0x10, 0x10,
    0xF0, 0x80, 0xF0, 0x10, 0xF0,
    0xF0, 0x80, 0xF0, 0x90, 0xF0,
    0xF0, 0x10, 0x20, 0x40, 0x40,
    0xF0, 0x90, 0xF0, 0x90, 0xF0,
    0xF0, 0x90, 0xF0, 0x10, 0xF0,
    0xF0, 0x90, 0xF0, 0x90, 0x90,
    0xE0, 0x90, 0xE0, 0x90, 0xE0,
    0xF0, 0x80, 0x80, 0x80, 0xF0,
    0xE0, 0x90, 0x90, 0x90, 0xE0,
    0xF0, 0x80, 0xF0, 0x80, 0xF0,
    0xF0, 0x80, 0xF0, 0x80, 0x80]

/-- The defaults of R8: entry at 0x200, `move`, `index`, `store`, the table of R216, a self-jump
(assumption log 11 to 16). -/
def Config.default : Config where
  resetPc := 0x200#16
  op8xy0 := .move
  bnnnTarget := .index
  fx65Direction := .store
  glyphTable := defaultGlyphTable
  endOfRun := .selfJump

/-- FREE VALUE (assumption log 3): the random byte of the `n`-th step for which the host supplied none
(42_load_and_alu.md R126, 60_exceptions.md R201). It has no body: nothing proves what it is. -/
opaque Config.randomByte : Nat → Byte

/-- `PROG_BASE` (R7). -/
abbrev progBase : Nat := 0x200

/-- `PROG_MAX` = 4096 - 0x200 (R7). -/
abbrev progMax : Nat := 3584

/-- `GLYPH_BASE` (R7). -/
abbrev glyphBase : Nat := 0x50

end Sys2Proof
end

