-- ==== Sys2Proof/Machine/State.lean ====
section
/-! DEFINITION. The machine state: the aggregate of 10_state.md R20, as plain data, and its reset value (R36). -/

namespace Sys2Proof.Machine

/-- `mem` (10_state.md R32, 20_memory.md R41) as (address, byte) pairs, addresses strictly rising, no byte
equal to what an unlisted address reads as: 0, the reset content (R36, assumption log 7). -/
abbrev Memory := List Host.Cell

/-- `fb` (10_state.md R31) as (index, cell) pairs in the same form; an unlisted cell is `pixelOff`, the reset
content (R36, assumption log 6). -/
abbrev Framebuffer := List (Nat × Pixel)

/-- The sub-causes of `OutOfRangeAccess` (60_exceptions.md R181); their codes are `Cause.code`. -/
inductive Cause where
  | fetch
  | memRead
  | memWrite
  | fb
  | key
  | stackOverflow
  | stackUnderflow
  deriving DecidableEq, Repr

/-- What the fault latch holds (10_state.md R33): the sub-cause, the address of the instruction whose step
faulted, and the offending index or address. -/
structure FaultRecord where
  cause : Cause
  at_ : Word
  info : Nat
  deriving DecidableEq, Repr

/-- The reasons for which `step` would stop WITHOUT a next state: none. The one exception of the core,
`OutOfRangeAccess`, is taken (60_exceptions.md R182): a next state with the latch of R33 written, after which
`step` changes nothing (40_step_cycle.md R88). Nobody raises a value of this type, so it can make no claim
unsafe (assumption log 2, 30). -/
inductive Fault where
  deriving DecidableEq, Repr

/-- The reasons for which `step` would refuse. -/
inductive Refusal where
  /-- An instruction whose meaning is not modelled yet, by its mnemonic; raised by `exec`'s arms only, and by
  none of them: every instruction has its meaning. Safe: it would stop where the hardware goes on. -/
  | notModelled (mnemonic : String)
  deriving DecidableEq, Repr

structure State where
  /-- The configuration of 00_scope.md R8. Not the spec's state: no event changes it (assumption log 1). -/
  cfg : Config
  /-- 4096 bytes (R32). -/
  mem : Memory
  /-- The general registers `V[0]`..`V[15]`; `V[0xF]` is the flag (R21, R22). -/
  V : Vector Byte 16
  /-- The framebuffer, 2048 cells of 32 bits (R31). -/
  fb : Framebuffer
  /-- The return-address stack (R25). -/
  stack : Vector Word 16
  /-- The stack pointer, the number of entries in use (R26). -/
  sp : Byte
  /-- The key array, true = down (R30). -/
  keys : Vector Bool 16
  /-- The program counter (R23). -/
  pc : Word
  /-- The index register (R24). -/
  I : Word
  /-- The delay timer (R27). -/
  dt : Byte
  /-- The sound timer (R28). -/
  st : Byte
  /-- The current-instruction register (R29). -/
  ir : Word
  /-- The fault latch (R33); the core is halted while it is not `none` (R88). -/
  fault : Option FaultRecord
  /-- Input of the next step: the random byte the host's `step` event carries (R11, R126), or `none` where the
  host supplied none. The model's own (assumption log 3). -/
  rnd : Option Byte
  /-- How many steps have completed: the index of the next free random byte. The model's own (assumption log 3). -/
  draws : Nat
  deriving DecidableEq, Repr

/-- The state after the host event `reset`, before the loads (10_state.md R36, 70_reset_and_hazards.md R210),
for a configuration. `rnd` and `draws` are the model's own: DESIGN CHOICE (assumption log 29). -/
def State.resetWith (c : Config) : State where
  cfg := c
  mem := []
  V := Vector.replicate 16 0#8
  fb := []
  stack := Vector.replicate 16 0#16
  sp := 0#8
  keys := Vector.replicate 16 false
  pc := c.resetPc
  I := 0#16
  dt := 0#8
  st := 0#8
  ir := 0#16
  fault := none
  rnd := none
  draws := 0

/-- The machine right after reset, in the default configuration of R8. -/
def State.reset : State := State.resetWith Config.default

end Sys2Proof.Machine
end

