-- ==== Sys2Proof/Machine/Ops.lean ====
section
/-! DEFINITION. The operations every meaning is made of: canonical sparse storage, the access primitives of
00_scope.md R15, the bounded loop of the spec's pseudocode, fetching (40_step_cycle.md R81), and taking the
one exception of the core (60_exceptions.md R182). -/

namespace Sys2Proof.Machine

/-! ### Sparse storage in canonical form, with default `d` for a key that is not listed -/

/-- The value at a key: the first listed one, else the default. -/
def Sparse.read {α : Type} (d : α) : List (Nat × α) → Nat → α
  | [], _ => d
  | c :: m, a => if c.1 = a then c.2 else Sparse.read d m a

/-- Drop every entry of a key. -/
def Sparse.erase {α : Type} (a : Nat) : List (Nat × α) → List (Nat × α)
  | [] => []
  | c :: m => if c.1 = a then Sparse.erase a m else c :: Sparse.erase a m

/-- List a key that is not listed, before the first greater key. -/
def Sparse.insert {α : Type} (a : Nat) (v : α) : List (Nat × α) → List (Nat × α)
  | [] => [(a, v)]
  | c :: m => if a < c.1 then (a, v) :: c :: m else c :: Sparse.insert a v m

/-- Store a value at a key; storing the default removes the entry, so equal contents are equal lists. -/
def Sparse.write {α : Type} [DecidableEq α] (d : α) (m : List (Nat × α)) (a : Nat) (v : α) :
    List (Nat × α) :=
  if v = d then Sparse.erase a m else Sparse.insert a v (Sparse.erase a m)

/-- The canonical form: keys below `bound`, strictly rising, no entry equal to the default. -/
def Sparse.wf {α : Type} [DecidableEq α] (d : α) (bound : Nat) : List (Nat × α) → Bool
  | [] => true
  | c :: m => decide (c.1 < bound) && decide (c.2 ≠ d) && m.all (fun e => decide (c.1 < e.1)) &&
      Sparse.wf d bound m

/-- The canonical form of memory: addresses 0..4095, no listed zero (assumption log 7). -/
def Memory.wf (m : Memory) : Bool := Sparse.wf 0#8 4096 m

/-- The byte at an address of memory (10_state.md R32). -/
def Memory.read (m : Memory) (a : Nat) : Byte := Sparse.read 0#8 m a

/-- Memory with one byte stored. -/
def Memory.write (m : Memory) (a : Nat) (v : Byte) : Memory := Sparse.write 0#8 m a v

/-- Memory with bytes stored at ascending addresses (the loaders, R215, R217). -/
def Memory.writeBlock (m : Memory) (a : Nat) : List Byte → Memory
  | [] => m
  | b :: bs => Memory.writeBlock (m.write a b) (a + 1) bs

/-- The canonical form of the framebuffer: indices 0..2047, no listed dark cell (assumption log 6). -/
def Framebuffer.wf (f : Framebuffer) : Bool := Sparse.wf pixelOff 2048 f

/-- The cell at an index of the framebuffer (10_state.md R31). -/
def Framebuffer.read (f : Framebuffer) (i : Nat) : Pixel := Sparse.read pixelOff f i

/-- The framebuffer with one cell stored. -/
def Framebuffer.write (f : Framebuffer) (i : Nat) (p : Pixel) : Framebuffer := Sparse.write pixelOff f i p

/-! ### Named reads and updates of the state -/

/-- `V[x]` (00_scope.md R14). -/
def State.reg (s : State) (x : Nibble) : Byte := s.V[x.toNat]'x.isLt

/-- `V[x] <- b` (R14). -/
def State.setReg (s : State) (x : Nibble) (b : Byte) : State := { s with V := s.V.set x.toNat b x.isLt }

/-- `pc <- a` (R14). -/
def State.setPc (s : State) (a : Word) : State := { s with pc := a }

/-- `I <- a` (R14). -/
def State.setI (s : State) (a : Word) : State := { s with I := a }

/-- `sp <- b` (R14). -/
def State.setSp (s : State) (b : Byte) : State := { s with sp := b }

/-- `dt <- b` (R14). -/
def State.setDt (s : State) (b : Byte) : State := { s with dt := b }

/-- `st <- b` (R14). -/
def State.setSt (s : State) (b : Byte) : State := { s with st := b }

/-- `mem[a]` of a state. -/
def State.byte (s : State) (a : Nat) : Byte := s.mem.read a

/-- `fb[i]` of a state. -/
def State.pixel (s : State) (i : Nat) : Pixel := s.fb.read i

/-- The random byte this step carries (00_scope.md R11, R15 `Rand`): the one the host supplied, else a free
value (assumption log 3). -/
def State.stepByte (s : State) : Byte := s.rnd.getD (Config.randomByte s.draws)

/-! ### `OutOfRangeAccess` -/

/-- The sub-cause codes of 60_exceptions.md R181. -/
def Cause.code : Cause → Nat
  | .fetch => 1
  | .memRead => 2
  | .memWrite => 3
  | .fb => 4
  | .key => 5
  | .stackOverflow => 6
  | .stackUnderflow => 7

/-- `OutOfRangeAccess(sub, info)` on its way to the latch (00_scope.md R16). -/
structure Raise where
  sub : Cause
  info : Nat
  deriving DecidableEq, Repr

/-- Fault entry (60_exceptions.md R182, 00_scope.md R16), on the state BEFORE the step: every write of the step
is discarded, the latch takes the sub-cause, the address of the instruction and `info`, and the core is halted.
There is no return from it but the host's `reset` (R183, `State.resetEvent`). -/
def State.takeFault (s : State) (r : Raise) : State := { s with fault := some ⟨r.sub, s.pc, r.info⟩ }

/-! ### The access primitives (00_scope.md R15): each checks its index -/

/-- `MemRead(addr, 1)`, reporting sub-cause `c`: `MEM_READ`, or `FETCH` for the bytes of an instruction (R81). -/
def memReadAs (c : Cause) (s : State) (addr : Nat) : Except Raise Byte :=
  if addr ≤ 4095 then .ok (s.byte addr) else .error ⟨c, addr⟩

/-- `MemRead(addr, 1)` of an instruction's data. -/
def memRead (s : State) (addr : Nat) : Except Raise Byte := memReadAs .memRead s addr

/-- `MemWrite(addr, 1, v)`. -/
def memWrite (s : State) (addr : Nat) (v : Byte) : Except Raise State :=
  if addr ≤ 4095 then .ok { s with mem := s.mem.write addr v } else .error ⟨.memWrite, addr⟩

/-- `FbRead(i)`. -/
def fbRead (s : State) (i : Nat) : Except Raise Pixel :=
  if i ≤ 2047 then .ok (s.pixel i) else .error ⟨.fb, i⟩

/-- `FbWrite(i, v)`. -/
def fbWrite (s : State) (i : Nat) (p : Pixel) : Except Raise State :=
  if i ≤ 2047 then .ok { s with fb := s.fb.write i p } else .error ⟨.fb, i⟩

/-- `KeyRead(k)`. -/
def keyRead (s : State) (k : Nat) : Except Raise Bool :=
  if h : k < 16 then .ok (s.keys[k]'h) else .error ⟨.key, k⟩

/-- `StackRead(i)`. -/
def stackRead (s : State) (i : Nat) : Except Raise Word :=
  if h : i < 16 then .ok (s.stack[i]'h) else .error ⟨.stackUnderflow, i⟩

/-- `StackWrite(i, v)`. -/
def stackWrite (s : State) (i : Nat) (v : Word) : Except Raise State :=
  if h : i < 16 then .ok { s with stack := s.stack.set i v h } else .error ⟨.stackOverflow, i⟩

/-- `for k = 0 .. n - 1: body k`, ascending; the first raise ends it (60_exceptions.md R187). -/
def forUpTo (n : Nat) (body : Nat → State → Except Raise State) (s : State) : Except Raise State :=
  match n with
  | 0 => .ok s
  | k + 1 =>
    match forUpTo k body s with
    | .ok t => body k t
    | .error r => .error r

/-! ### The frame of a step (40_step_cycle.md R80) -/

/-- The instruction word at `pc` (R81, 20_memory.md R43): two byte reads, high byte first. -/
def fetch (s : State) : Except Raise Word :=
  match memReadAs .fetch s s.pc.toNat with
  | .error r => .error r
  | .ok hi =>
    match memReadAs .fetch s (s.pc.toNat + 1) with
    | .error r => .error r
    | .ok lo => .ok (wordOfBytes hi lo)

/-- The state in which an instruction's pseudocode starts (R83): `ir = w`, `pc = pc0 + 2`; the step's random
byte is used up (assumption log 3). -/
def State.fetched (s : State) (w : Word) : State :=
  { s with ir := w, pc := s.pc + 2#16, rnd := none, draws := s.draws + 1 }

/-- One step of instruction `i` from the state before it: its pseudocode runs on the fetched state; a raise
undoes everything and takes the fault (R80; assumption log 4). -/
def complete (i : Instr) (body : State → Except Raise State) (s : State) :
    Host.Outcome State Fault Refusal :=
  match body (s.fetched (encode i)) with
  | .ok t => .next t
  | .error r => .next (s.takeFault r)

/-- `if cond: pc <- trunc_16(pc + 2)` (R83 "Skip"). -/
def State.skipIf (s : State) (cond : Bool) : State := if cond then s.setPc (s.pc + 2#16) else s

/-- `s` with the word `w` where the next step fetches it: not halted, at a `pc` a fetch is possible from
(0x200 where it is not), the high byte at `pc` and the low byte at `pc + 1` (assumption log 8). -/
def State.placeWord (s : State) (w : Word) : State :=
  let p : Word := if s.pc.toNat ≤ 4094 then s.pc else 0x200#16
  { s with fault := none, pc := p, mem := s.mem.writeBlock p.toNat [highByte w, lowByte w] }

end Sys2Proof.Machine
end

