-- ==== Sys2Proof/Machine/Flags.lean ====
section
/-! DEFINITION. What the flag-writing instructions put in VF (10_state.md R22, 42_load_and_alu.md R112) and the
order of the two writes (R113). -/

namespace Sys2Proof.Machine

/-- A flag as the register holds it: 0 or 1. -/
def flagByte (b : Bool) : Byte := if b then 1#8 else 0#8

/-- 8xy4: 1 if the exact sum is above 255 (R117). -/
def carryFlag (a b : Byte) : Byte := flagByte (decide (a.toNat + b.toNat > 255))

/-- 8xy5 for minuend `a`, subtrahend `b`: 1 if `b < a`, strictly (R118). 8xy7 has them swapped (R120). -/
def noBorrowFlag (a b : Byte) : Byte := flagByte (decide (b.toNat < a.toNat))

/-- 8xy6: the bit shifted out on the right (R119). -/
def lowBitFlag (a : Byte) : Byte := flagByte (a.getLsbD 0)

/-- 8xyE: the bit shifted out on the left (R121). -/
def highBitFlag (a : Byte) : Byte := flagByte (a.getLsbD 7)

/-- The sum modulo 256 (R111, R117). -/
def sumByte (a b : Byte) : Byte := BitVec.ofNat 8 (a.toNat + b.toNat)

/-- The difference modulo 256: `a - b`, plus 256 when `a < b` (R118, R120). -/
def differenceByte (a b : Byte) : Byte :=
  BitVec.ofNat 8 (if a.toNat < b.toNat then a.toNat + 256 - b.toNat else a.toNat - b.toNat)

/-- `a div 2` (R119). -/
def halfByte (a : Byte) : Byte := BitVec.ofNat 8 (a.toNat / 2)

/-- `(a * 2) mod 256` (R121). -/
def doubleByte (a : Byte) : Byte := BitVec.ofNat 8 (a.toNat * 2)

/-- VF first, then the result: with `x = 0xF` the result stands (R113, assumption log 18). The operands were
sampled before. -/
def State.setFlagThenReg (s : State) (x : Nibble) (flag result : Byte) : State :=
  (s.setReg flagReg flag).setReg x result

end Sys2Proof.Machine
end

