-- ==== Sys2Proof/Machine/Operands.lean ====
section
/-! DEFINITION. The operand forms: effective addresses, the values written to `I`, BCD digits, the draw
geometry and the key scan. Addresses and indices are natural numbers, never wrapped (20_memory.md R47). -/

namespace Sys2Proof.Machine

/-- The effective address `I + k` (43_index_and_memory.md R136). -/
def State.ea (s : State) (k : Nat) : Nat := s.I.toNat + k

/-- The running register index `k` of Fx55 and Fx65, `k` in 0..15 (R134, R135). -/
def runningReg (k : Nat) : Nibble := BitVec.ofNat 4 k

/-- `zext_16(nnn)` (30_encoding.md R62). -/
def targetOf (nnn : Imm12) : Word := BitVec.ofNat 16 nnn.toNat

/-- `zext_16(V[0] + nnn)`, the sum of Bnnn (41_control_flow.md R98). -/
def offsetTarget (a : Byte) (nnn : Imm12) : Word := BitVec.ofNat 16 (a.toNat + nnn.toNat)

/-- `(I + Vx) mod 65536` (43_index_and_memory.md R131). -/
def indexSum (i : Word) (a : Byte) : Word := BitVec.ofNat 16 (i.toNat + a.toNat)

/-- `0x50 + 5 * Vx` (R132). -/
def glyphAddress (a : Byte) : Word := BitVec.ofNat 16 (glyphBase + 5 * a.toNat)

/-- Digit `k` of the BCD of `a`: hundreds, tens, ones (R133). -/
def bcdDigit (a : Byte) (k : Nat) : Byte :=
  BitVec.ofNat 8 (if k = 0 then a.toNat / 100 else if k = 1 then a.toNat / 10 % 10 else a.toNat % 10)

/-- The start column of a draw, `V[x] mod 64` (44_display.md R151). -/
def startColumn (a : Byte) : Nat := a.toNat % 64

/-- The start row of a draw, `V[y] mod 32` (R151). -/
def startRow (a : Byte) : Nat := a.toNat % 32

/-- `idx(r, c) = (py + r) * 64 + (px + c)`, reduced by nothing (R151). -/
def pixelIndex (px py r c : Nat) : Nat := (py + r) * 64 + (px + c)

/-- Whether column `c` of a sprite byte is set: bit `7 - c`, most significant first (R151, R152). -/
def spriteBit (b : Byte) (c : Nat) : Bool := b.getLsbD (7 - c)

/-- The least index of a key that is down, in a list of keys (45_keys_and_timers.md R163). -/
def lowestDown : List Bool → Option Nat
  | [] => none
  | true :: _ => some 0
  | false :: ks => (lowestDown ks).map (· + 1)

end Sys2Proof.Machine
end

