-- ==== Sys2Proof/Machine/Alu.lean ====
section
/-! DEFINITION. Register loads, ALU and random (42_load_and_alu.md R110 to R126). Operands are read from the
fetched state `t` before any write (R113). -/

namespace Sys2Proof.Machine

/-- 6xkk `LD Vx, kk` (R110). -/
def execLdImm (x : Nibble) (kk : Byte) (s : State) : Host.Outcome State Fault Refusal :=
  complete (.ldImm x kk) (fun t => .ok (t.setReg x kk)) s

/-- 7xkk `ADD Vx, kk` (R111): no flag. -/
def execAddImm (x : Nibble) (kk : Byte) (s : State) : Host.Outcome State Fault Refusal :=
  complete (.addImm x kk) (fun t => .ok (t.setReg x (sumByte (t.reg x) kk))) s

/-- 8xy0 `LD Vx, Vy` (R122), by `OP_8XY0` (assumption log 13). -/
def execLdReg (x y : Nibble) (s : State) : Host.Outcome State Fault Refusal :=
  complete (.ldReg x y) (fun t =>
    match t.cfg.op8xy0 with
    | .move => .ok (t.setReg x (t.reg y))
    | .noop => .ok t) s

/-- 8xy1 `OR Vx, Vy` (R114): no flag. -/
def execOrReg (x y : Nibble) (s : State) : Host.Outcome State Fault Refusal :=
  complete (.orReg x y) (fun t => .ok (t.setReg x (t.reg x ||| t.reg y))) s

/-- 8xy2 `AND Vx, Vy` (R115): no flag. -/
def execAndReg (x y : Nibble) (s : State) : Host.Outcome State Fault Refusal :=
  complete (.andReg x y) (fun t => .ok (t.setReg x (t.reg x &&& t.reg y))) s

/-- 8xy3 `XOR Vx, Vy` (R116): no flag. -/
def execXorReg (x y : Nibble) (s : State) : Host.Outcome State Fault Refusal :=
  complete (.xorReg x y) (fun t => .ok (t.setReg x (t.reg x ^^^ t.reg y))) s

/-- 8xy4 `ADD Vx, Vy` (R117). -/
def execAddReg (x y : Nibble) (s : State) : Host.Outcome State Fault Refusal :=
  complete (.addReg x y) (fun t =>
    .ok (t.setFlagThenReg x (carryFlag (t.reg x) (t.reg y)) (sumByte (t.reg x) (t.reg y)))) s

/-- 8xy5 `SUB Vx, Vy` (R118). -/
def execSubReg (x y : Nibble) (s : State) : Host.Outcome State Fault Refusal :=
  complete (.subReg x y) (fun t =>
    .ok (t.setFlagThenReg x (noBorrowFlag (t.reg x) (t.reg y)) (differenceByte (t.reg x) (t.reg y)))) s

/-- 8xy6 `SHR Vx` (R119): `V[y]` takes no part. -/
def execShr (x ign : Nibble) (s : State) : Host.Outcome State Fault Refusal :=
  complete (.shr x ign) (fun t =>
    .ok (t.setFlagThenReg x (lowBitFlag (t.reg x)) (halfByte (t.reg x)))) s

/-- 8xy7 `SUBN Vx, Vy` (R120): the difference `Vy - Vx`. -/
def execSubnReg (x y : Nibble) (s : State) : Host.Outcome State Fault Refusal :=
  complete (.subnReg x y) (fun t =>
    .ok (t.setFlagThenReg x (noBorrowFlag (t.reg y) (t.reg x)) (differenceByte (t.reg y) (t.reg x)))) s

/-- 8xyE `SHL Vx` (R121): `V[y]` takes no part. -/
def execShl (x ign : Nibble) (s : State) : Host.Outcome State Fault Refusal :=
  complete (.shl x ign) (fun t =>
    .ok (t.setFlagThenReg x (highBitFlag (t.reg x)) (doubleByte (t.reg x)))) s

/-- Cxkk `RND Vx, kk` (R126): the byte is the one this step carries, read before the step uses it up
(assumption log 3). -/
def execRnd (x : Nibble) (kk : Byte) (s : State) : Host.Outcome State Fault Refusal :=
  complete (.rnd x kk) (fun t => .ok (t.setReg x (s.stepByte &&& kk))) s

end Sys2Proof.Machine
end

