-- ==== Sys2Proof/Machine/ControlFlow.lean ====
section
/-! DEFINITION. Control transfer (41_control_flow.md R90 to R98). In each body `t` is the fetched state:
`t.pc` is `pc0 + 2` (R83). -/

namespace Sys2Proof.Machine

/-- 00EE `RET` (R91): the popped entry keeps its value. -/
def execRet (ign : Nibble) (s : State) : Host.Outcome State Fault Refusal :=
  complete (.ret ign) (fun t =>
    match stackRead t (t.sp - 1#8).toNat with
    | .ok v => .ok ((t.setSp (t.sp - 1#8)).setPc v)
    | .error r => .error r) s

/-- 1nnn `JP nnn` (R92). -/
def execJp (nnn : Imm12) (s : State) : Host.Outcome State Fault Refusal :=
  complete (.jp nnn) (fun t => .ok (t.setPc (targetOf nnn))) s

/-- 2nnn `CALL nnn` (R93): the pushed value is the address after the call. -/
def execCall (nnn : Imm12) (s : State) : Host.Outcome State Fault Refusal :=
  complete (.call nnn) (fun t =>
    match stackWrite t t.sp.toNat t.pc with
    | .ok u => .ok ((u.setSp (u.sp + 1#8)).setPc (targetOf nnn))
    | .error r => .error r) s

/-- 3xkk `SE Vx, kk` (R94). -/
def execSeImm (x : Nibble) (kk : Byte) (s : State) : Host.Outcome State Fault Refusal :=
  complete (.seImm x kk) (fun t => .ok (t.skipIf (t.reg x == kk))) s

/-- 4xkk `SNE Vx, kk` (R95). -/
def execSneImm (x : Nibble) (kk : Byte) (s : State) : Host.Outcome State Fault Refusal :=
  complete (.sneImm x kk) (fun t => .ok (t.skipIf (t.reg x != kk))) s

/-- 5xy0 `SE Vx, Vy` (R96). -/
def execSeReg (x y ign : Nibble) (s : State) : Host.Outcome State Fault Refusal :=
  complete (.seReg x y ign) (fun t => .ok (t.skipIf (t.reg x == t.reg y))) s

/-- 9xy0 `SNE Vx, Vy` (R97). -/
def execSneReg (x y ign : Nibble) (s : State) : Host.Outcome State Fault Refusal :=
  complete (.sneReg x y ign) (fun t => .ok (t.skipIf (t.reg x != t.reg y))) s

/-- Bnnn `JP V0, nnn` (R98), by `BNNN_TARGET` (assumption log 14). -/
def execJpV0 (nnn : Imm12) (s : State) : Host.Outcome State Fault Refusal :=
  complete (.jpV0 nnn) (fun t =>
    match t.cfg.bnnnTarget with
    | .index => .ok (t.setI (offsetTarget (t.reg 0x0#4) nnn))
    | .pc => .ok (t.setPc (offsetTarget (t.reg 0x0#4) nnn))) s

end Sys2Proof.Machine
end

