-- ==== Sys2Proof/Machine/Display.lean ====
section
/-! DEFINITION. The framebuffer XOR engine (44_display.md R150 to R152). -/

namespace Sys2Proof.Machine

/-- Toggle one cell, setting VF where it was lit (R152). -/
def togglePixel (i : Nat) (t : State) : Except Raise State :=
  match fbRead t i with
  | .error r => .error r
  | .ok old => fbWrite (if old = pixelOn then t.setReg flagReg 1#8 else t) i (old ^^^ pixelOn)

/-- The columns of one sprite row, left to right; a clear sprite bit touches no cell (R152). -/
def drawRow (b : Byte) (px py r : Nat) (t : State) : Except Raise State :=
  forUpTo 8 (fun c u => if spriteBit b c then togglePixel (pixelIndex px py r c) u else .ok u) t

/-- The rows of a sprite, top to bottom: read the row's byte, draw it (R152, R187). -/
def drawRows (n px py : Nat) (t : State) : Except Raise State :=
  forUpTo n (fun r u =>
    match memRead u (u.ea r) with
    | .ok b => drawRow b px py r u
    | .error e => .error e) t

/-- 00E0 `CLS` (R150): every cell dark. -/
def execCls (ign : Nibble) (s : State) : Host.Outcome State Fault Refusal :=
  complete (.cls ign) (fun t => .ok { t with fb := [] }) s

/-- Dxyn `DRW Vx, Vy, n` (R152): the start position is sampled before VF is cleared (R113). -/
def execDrw (x y n : Nibble) (s : State) : Host.Outcome State Fault Refusal :=
  complete (.drw x y n) (fun t =>
    drawRows n.toNat (startColumn (t.reg x)) (startRow (t.reg y)) (t.setReg flagReg 0#8)) s

end Sys2Proof.Machine
end

