-- ==== Sys2Proof/Machine/Index.lean ====
section
/-! DEFINITION. The index register and the memory instructions (43_index_and_memory.md R130 to R136): bytes at
`I + k`, ascending `k`; `I` is never modified by an access. -/

namespace Sys2Proof.Machine

/-- `for k = 0 .. n - 1: MemWrite(I + k, 1, b k)`, the store loop of Fx33, Fx55 and Fx65 (R133 to R136). -/
def storeLoop (n : Nat) (b : Nat → State → Byte) (t : State) : Except Raise State :=
  forUpTo n (fun k u => memWrite u (u.ea k) (b k u)) t

/-- `for k = 0 .. x: V[k] <- MemRead(I + k, 1)` (R135, `load`). -/
def loadLoop (n : Nat) (t : State) : Except Raise State :=
  forUpTo n (fun k u =>
    match memRead u (u.ea k) with
    | .ok b => .ok (u.setReg (runningReg k) b)
    | .error r => .error r) t

/-- Annn `LD I, nnn` (R130). -/
def execLdI (nnn : Imm12) (s : State) : Host.Outcome State Fault Refusal :=
  complete (.ldI nnn) (fun t => .ok (t.setI (targetOf nnn))) s

/-- Fx1E `ADD I, Vx` (R131): no flag. -/
def execAddI (x : Nibble) (s : State) : Host.Outcome State Fault Refusal :=
  complete (.addI x) (fun t => .ok (t.setI (indexSum t.I (t.reg x)))) s

/-- Fx29 `LD F, Vx` (R132): the whole byte, not its low nibble. -/
def execLdF (x : Nibble) (s : State) : Host.Outcome State Fault Refusal :=
  complete (.ldF x) (fun t => .ok (t.setI (glyphAddress (t.reg x)))) s

/-- Fx33 `LD B, Vx` (R133). -/
def execLdB (x : Nibble) (s : State) : Host.Outcome State Fault Refusal :=
  complete (.ldB x) (fun t => storeLoop 3 (fun k u => bcdDigit (u.reg x) k) t) s

/-- Fx55 `LD [I], Vx` (R134). -/
def execStRegs (x : Nibble) (s : State) : Host.Outcome State Fault Refusal :=
  complete (.stRegs x) (fun t => storeLoop (x.toNat + 1) (fun k u => u.reg (runningReg k)) t) s

/-- Fx65 `LD Vx, [I]` (R135), by `FX65_DIRECTION` (assumption log 15). -/
def execLdRegs (x : Nibble) (s : State) : Host.Outcome State Fault Refusal :=
  complete (.ldRegs x) (fun t =>
    match t.cfg.fx65Direction with
    | .store => storeLoop (x.toNat + 1) (fun k u => u.reg (runningReg k)) t
    | .load => loadLoop (x.toNat + 1) t) s

end Sys2Proof.Machine
end

