-- ==== Sys2Proof/Machine/KeysTimers.lean ====
section
/-! DEFINITION. The key and timer instructions (45_keys_and_timers.md R160 to R168). -/

namespace Sys2Proof.Machine

/-- Ex9E `SKP Vx` (R160): the key number is the whole byte, not masked (R162). -/
def execSkp (x : Nibble) (s : State) : Host.Outcome State Fault Refusal :=
  complete (.skp x) (fun t =>
    match keyRead t (t.reg x).toNat with
    | .ok down => .ok (t.skipIf down)
    | .error r => .error r) s

/-- ExA1 `SKNP Vx` (R161). -/
def execSknp (x : Nibble) (s : State) : Host.Outcome State Fault Refusal :=
  complete (.sknp x) (fun t =>
    match keyRead t (t.reg x).toNat with
    | .ok down => .ok (t.skipIf (!down))
    | .error r => .error r) s

/-- Fx07 `LD Vx, DT` (R164; assumption log 20). -/
def execLdVxDt (x : Nibble) (s : State) : Host.Outcome State Fault Refusal :=
  complete (.ldVxDt x) (fun t => .ok (t.setReg x t.dt)) s

/-- Fx0A `LD Vx, K` (R163): the lowest key that is down, else back to `pc0` so that the next step re-fetches it. -/
def execLdVxK (x : Nibble) (s : State) : Host.Outcome State Fault Refusal :=
  complete (.ldVxK x) (fun t =>
    match lowestDown t.keys.toList with
    | some k => .ok (t.setReg x (BitVec.ofNat 8 k))
    | none => .ok (t.setPc (t.pc - 2#16))) s

/-- Fx15 `LD DT, Vx` (R165; assumption log 20). -/
def execLdDtVx (x : Nibble) (s : State) : Host.Outcome State Fault Refusal :=
  complete (.ldDtVx x) (fun t => .ok (t.setDt (t.reg x))) s

/-- Fx18 `LD ST, Vx` (R166; assumption log 20). -/
def execLdStVx (x : Nibble) (s : State) : Host.Outcome State Fault Refusal :=
  complete (.ldStVx x) (fun t => .ok (t.setSt (t.reg x))) s

end Sys2Proof.Machine
end

