-- ==== Sys2Proof/Machine/NoOps.lean ====
section
/-! DEFINITION. The no-op words (40_step_cycle.md R84 to R87): `pc` advances by 2, `ir` takes the word. -/

namespace Sys2Proof.Machine

/-- 0nnn `SYS nnn` (R84). -/
def execSys (nnn : Imm12) (s : State) : Host.Outcome State Fault Refusal :=
  complete (.sys nnn) (fun t => .ok t) s

/-- The reserved words of group 0x8 (R85). -/
def execNop8 (ign : Imm12) (s : State) : Host.Outcome State Fault Refusal :=
  complete (.nop8 ign) (fun t => .ok t) s

/-- The reserved words of group 0xE (R86). -/
def execNope (ign : Imm12) (s : State) : Host.Outcome State Fault Refusal :=
  complete (.nope ign) (fun t => .ok t) s

/-- The reserved words of group 0xF (R87). -/
def execNopf (ign : Imm12) (s : State) : Host.Outcome State Fault Refusal :=
  complete (.nopf ign) (fun t => .ok t) s

end Sys2Proof.Machine
end

