-- ==== Sys2Proof/Machine/Step.lean ====
section
/-! DEFINITION. One step of the core (40_step_cycle.md R80), and where the host of a test stands the next
instruction. -/

namespace Sys2Proof.Machine

/-- `step` (R80): a halted core does not step (R88); a fetch that cannot be made faults (R81); otherwise the
fetched word is decoded and executed. Total: it always answers a next state. -/
def step (s : State) : Host.Outcome State Fault Refusal :=
  match s.fault with
  | some _ => .next s
  | none =>
    match fetch s with
    | .ok w => exec (decodeWord w) s
    | .error r => .next (s.takeFault r)

/-- `s` with the instruction whose bits are `w` stored where `step` fetches its next instruction
(assumption log 8). -/
def State.withFetchWord (s : State) (nbits w : Nat) : State := s.placeWord (tableWord nbits w)

end Sys2Proof.Machine
end

