-- ==== Sys2Proof/Machine/EndOfRun.lean ====
section
/-! DEFINITION. When a state is an end of a run: the parameter `END_OF_RUN` of 00_scope.md R8
(70_reset_and_hazards.md R226). A convention of claims, which no step reads (assumption log 11, 36). -/

namespace Sys2Proof.Machine

/-- The number a piece of the state holds. -/
def State.valueAt (s : State) : Place → Nat
  | .pc => s.pc.toNat
  | .I => s.I.toNat
  | .sp => s.sp.toNat
  | .dt => s.dt.toNat
  | .st => s.st.toNat
  | .ir => s.ir.toNat
  | .V x => (s.reg x).toNat
  | .mem a => (s.byte a).toNat
  | .fb i => (s.pixel i).toNat
  | .stack i => s.stack[i].toNat
  | .keys k => s.keys[k].toNat

/-- The word that a fetch reads at `pc` passes a test; no word passes where the fetch would fault. -/
def State.fetchPasses (s : State) (test : Word → Bool) : Bool :=
  match fetch s with
  | .error _ => false
  | .ok w => test w

/-- The word is a `JP` to the address (R226, 41_control_flow.md R92). -/
def isJumpTo (a w : Word) : Bool := w == encode (.jp (fieldNnn w)) && targetOf (fieldNnn w) == a

/-- What an `END_OF_RUN` asks of a state. -/
def State.meets (s : State) : EndOfRun → Bool
  | .selfJump => s.fetchPasses (isJumpTo s.pc)
  | .fetches mask pattern => s.fetchPasses fun w => w &&& mask == pattern
  | .holds p v => s.valueAt p == v
  | .both a b => s.meets a && s.meets b
  | .either a b => s.meets a || s.meets b
  | .neg a => !s.meets a

/-- The state is an end of a run, by the configured `END_OF_RUN`. A state halted by a fault is none, whatever the
parameter (R226, 40_step_cycle.md R88). -/
def State.endOfRun (s : State) : Bool := s.fault.isNone && s.meets s.cfg.endOfRun

end Sys2Proof.Machine
end

