-- ==== Sys2Proof/Machine/HostEvents.lean ====
section
/-! DEFINITION. The host's side of the interface (00_scope.md R9 to R11): what each host event does to the state,
and `Session`, the moves a host has (70_reset_and_hazards.md R213, R219, R227; assumption log 9). -/

namespace Sys2Proof.Machine

/-- `reset` (R210): every piece of state takes its reset value. The configuration is fixed for the machine, and
the model's own counter of free random bytes goes on, so that no two steps share one (assumption log 10). -/
def State.resetEvent (s : State) : State := { State.resetWith s.cfg with draws := s.draws }

/-- `load_glyphs` (R215): `GLYPH_TABLE` to 0x050..0x09F. -/
def State.loadGlyphs (s : State) : State :=
  { s with mem := s.mem.writeBlock glyphBase s.cfg.glyphTable.toList }

/-- Why `load_program` fails (R217); not a fault of the core (R180). -/
inductive LoadError where
  | emptyProgram
  | programTooLarge
  deriving DecidableEq, Repr

/-- `load_program(bytes)` (R217): the bytes to 0x200.., or an error and no change. -/
def State.loadProgram (s : State) (bytes : List Byte) : Except LoadError State :=
  if bytes.length = 0 then .error .emptyProgram
  else if bytes.length > progMax then .error .programTooLarge
  else .ok { s with mem := s.mem.writeBlock progBase bytes }

/-- `set_keys(k)` (60_exceptions.md R199). -/
def State.setKeys (s : State) (k : Vector Bool 16) : State := { s with keys := k }

/-- One timer ticked: down by one, staying at 0 (R196, assumption log 19). -/
def tickTimer (b : Byte) : Byte := if b.toNat > 0 then b - 1#8 else b

/-- `tick` (R196): both timers. -/
def State.tick (s : State) : State := { s with dt := tickTimer s.dt, st := tickTimer s.st }

/-- `observe_framebuffer` (R200): the 2048 cells, in index order. -/
def State.observeFramebuffer (s : State) : List Pixel := (List.range 2048).map s.pixel

/-- `observe_timers` (R198). -/
def State.observeTimers (s : State) : Byte × Byte := (s.dt, s.st)

/-- What the host reads of the fault latch (10_state.md R33): code, address, info. -/
def State.observeFault (s : State) : Option (Nat × Word × Nat) :=
  s.fault.map fun f => (f.cause.code, f.at_, f.info)

/-- `step(rnd)` as the host calls it (R11, R80): one step carrying the random byte. -/
def State.stepEvent (s : State) (rnd : Byte) : Host.Outcome State Fault Refusal :=
  step { s with rnd := some rnd }

/-- The events of R11, and the reading of the latch (R227). -/
inductive Event where
  | reset
  | loadGlyphs
  | loadProgram (bytes : List Byte)
  | step (rnd : Byte)
  | setKeys (k : Vector Bool 16)
  | tick
  | observeFramebuffer
  | observeTimers
  | observeFault
  deriving DecidableEq, Repr

/-- How far the boot of R213 has come: which loads are done, or that the first step was taken. -/
inductive Phase where
  | boot (glyphs program : Bool)
  | running
  deriving DecidableEq, Repr

/-- A machine and the host's place in the boot. -/
structure Session where
  state : State
  phase : Phase
  deriving DecidableEq, Repr

/-- A session just after `reset`. -/
def Session.start (c : Config) : Session := ⟨State.resetWith c, .boot false false⟩

/-- One event, or `none` where the host has no such move: a load after the first step (R219), a second
successful `load_program`, a step before the boot is complete (R213). A `load_program` that fails before the first
step is a move that changes nothing (R217). DESIGN CHOICE (assumption log 37): so it is after a successful one
too, where the spec is silent; the loaded program and the boot stand. -/
def Session.apply (e : Event) (z : Session) : Option Session :=
  match e with
  | .reset => some ⟨z.state.resetEvent, .boot false false⟩
  | .loadGlyphs =>
    match z.phase with
    | .boot _ p => some ⟨z.state.loadGlyphs, .boot true p⟩
    | .running => none
  | .loadProgram bytes =>
    match z.phase, z.state.loadProgram bytes with
    | .running, _ => none
    | .boot _ _, .error _ => some z
    | .boot g false, .ok s => some ⟨s, .boot g true⟩
    | .boot _ true, .ok _ => none
  | .step rnd =>
    match z.phase with
    | .boot true true | .running =>
      match z.state.stepEvent rnd with
      | .next s => some ⟨s, .running⟩
      | .fault _ => none
      | .refused _ => none
    | .boot _ _ => none
  | .setKeys k => some ⟨z.state.setKeys k, z.phase⟩
  | .tick => some ⟨z.state.tick, z.phase⟩
  | .observeFramebuffer => some z
  | .observeTimers => some z
  | .observeFault => some z

/-- A sequence of events (R10: events are atomic and totally ordered). -/
def Session.run : List Event → Session → Option Session
  | [], z => some z
  | e :: es, z =>
    match z.apply e with
    | some z' => z'.run es
    | none => none

end Sys2Proof.Machine
end

