-- ==== Sys2Proof/Safety.lean ====
section
/-! DEFINITION. What claims call a good state: not halted, and the invariants of 10_state.md R38. When a run is at its
end is `State.endOfRun` in Machine/EndOfRun.lean. -/

namespace Sys2Proof.Machine

/-- The core is halted by a fault (60_exceptions.md R182). Never a success of a run (40_step_cycle.md R88). -/
abbrev State.Halted (s : State) : Prop := s.fault ≠ none

/-- Every listed cell of a framebuffer is lit: with unlisted cells dark, every cell is `0` or `0xFFFFFFFF`
(R38 (b)). -/
def Framebuffer.allLit (f : Framebuffer) : Bool := f.all fun c => c.2 == pixelOn

/-- The stack entries in use hold at most 4096 (R38 (c), when `BNNN_TARGET = index`). -/
abbrev State.StackBounded (s : State) : Prop := ∀ i : Fin 16, i.val < s.sp.toNat → s.stack[i].toNat ≤ 4096

/-- The invariant of R38 as a step keeps it: storage is canonical, `sp <= 16`, cells are dark or lit, and, when
`BNNN_TARGET = index`, `pc <= 4098` and the entries in use are at most 4096. -/
structure State.Inv (s : State) : Prop where
  memWf : s.mem.wf = true
  fbWf : s.fb.wf = true
  fbLit : s.fb.allLit = true
  spBound : s.sp.toNat ≤ 16
  pcBound : s.cfg.bnnnTarget = .index → s.pc.toNat ≤ 4098
  stackBound : s.cfg.bnnnTarget = .index → s.StackBounded

/-- A run of events in which the core is never halted. -/
def Session.runsWithoutFault : List Event → Session → Bool
  | [], z => z.state.fault.isNone
  | e :: es, z =>
    z.state.fault.isNone &&
    match z.apply e with
    | some z' => z'.runsWithoutFault es
    | none => false

end Sys2Proof.Machine
end

