-- ==== Sys2Proof/Certificates/Slice0/Obligations.lean ====
section
/-! DEFINITION. The statements for the provers, rule by rule of spec/. `Claim` holds the words they share. -/

open Sys2Proof Sys2Proof.Machine

namespace Sys2Proof.Claim

/-- `s` after a completed step of `i` that has no effect of its own: past the instruction, its word in `ir`
(40_step_cycle.md R80, R83). The last two fields are the model's own: the step's random byte is used up
(assumption log 3). -/
def after (s : State) (i : Instr) : State :=
  { s with pc := s.pc + 2#16, ir := encode i, rnd := none, draws := s.draws + 1 }

/-- `s` with the fault latched by the step at `s.pc` (60_exceptions.md R181, R182): everything else as before. -/
def faulted (s : State) (c : Cause) (info : Nat) : State := { s with fault := some ⟨c, s.pc, info⟩ }

/-- Every word with these fixed bits decodes to the instruction that its fields give (30_encoding.md R66). -/
def Selects (pattern mask : Word) (i : Word → Instr) : Prop :=
  ∀ w : Word, w &&& mask = pattern → decodeWord w = i w

/-- The step of `i` from `s` completes in a state that differs from `after s i` in register `x` alone, which
holds `b`. -/
def WritesReg (i : Instr) (s : State) (x : Nibble) (b : Byte) : Prop :=
  ∃ t, exec i s = .next t ∧ t.reg x = b ∧ (∀ r, r ≠ x → t.reg r = s.reg r) ∧ t = { after s i with V := t.V }

/-- The same for an instruction that writes VF before `V[x]`: VF holds the flag unless `x` is 0xF
(42_load_and_alu.md R113). -/
def WritesFlagAndReg (i : Instr) (s : State) (x : Nibble) (flag b : Byte) : Prop :=
  ∃ t, exec i s = .next t ∧ t.reg x = b ∧ (x ≠ 0xF#4 → t.reg 0xF#4 = flag) ∧
    (∀ r, r ≠ x → r ≠ 0xF#4 → t.reg r = s.reg r) ∧ t = { after s i with V := t.V }

/-- The step of `i` from `s` completes in a state that differs from `after s i` in memory alone, where exactly
the bytes at `a`, `a + 1`, .., `a + n - 1` are stored to, byte `k` taking `b k`. -/
def StoresBlock (i : Instr) (s : State) (a n : Nat) (b : Nat → Byte) : Prop :=
  ∃ t, exec i s = .next t ∧ (∀ k, k < n → t.byte (a + k) = b k) ∧
    (∀ c, c < a ∨ a + n ≤ c → t.byte c = s.byte c) ∧ t = { after s i with mem := t.mem }

/-- The first address above 4095 among `a`, `a + 1`, ... -/
def firstBad (a : Nat) : Nat := if a ≤ 4095 then 4096 else a

/-- Two answers that are next states equal in every field but `ir`. -/
def SameButIr (o o' : Host.Outcome State Fault Refusal) : Prop :=
  ∃ t t', o = .next t ∧ o' = .next t' ∧ { t with ir := 0#16 } = { t' with ir := 0#16 }

/-- Sprite bit `c` of row `r` of a draw from `s` is set (44_display.md R151). -/
def spriteSet (s : State) (r c : Nat) : Prop := (s.byte (s.ea r)).getLsbD (7 - c) = true

/-- The cell that sprite bit `c` of row `r` addresses: `(py + r) * 64 + (px + c)` (R151). -/
def cellOf (s : State) (x y : Nibble) (r c : Nat) : Nat :=
  ((s.reg y).toNat % 32 + r) * 64 + ((s.reg x).toNat % 64 + c)

/-- A draw of `n` rows from `s` toggles cell `i`. -/
def Toggles (s : State) (x y n : Nibble) (i : Nat) : Prop :=
  ∃ r c, r < n.toNat ∧ c < 8 ∧ spriteSet s r c ∧ i = cellOf s x y r c

/-- Rows `0 .. r - 1` of a draw raise nothing: their bytes are in memory and their set bits in the framebuffer. -/
def RowsInRange (s : State) (x y : Nibble) (r : Nat) : Prop :=
  ∀ r', r' < r → s.ea r' ≤ 4095 ∧ ∀ c, c < 8 → spriteSet s r' c → cellOf s x y r' c ≤ 2047

/-- The `pc` after a completed step, instruction by instruction (10_state.md R23). -/
def nextPc (s : State) : Instr → Word
  | .jp nnn | .call nnn => nnn.zeroExtend 16
  | .ret _ => s.stack.toList.getD (s.sp - 1#8).toNat 0#16
  | .seImm x kk => if s.reg x = kk then s.pc + 4#16 else s.pc + 2#16
  | .sneImm x kk => if s.reg x ≠ kk then s.pc + 4#16 else s.pc + 2#16
  | .seReg x y _ => if s.reg x = s.reg y then s.pc + 4#16 else s.pc + 2#16
  | .sneReg x y _ => if s.reg x ≠ s.reg y then s.pc + 4#16 else s.pc + 2#16
  | .skp x => if s.keys.toList.getD (s.reg x).toNat false = true then s.pc + 4#16 else s.pc + 2#16
  | .sknp x => if s.keys.toList.getD (s.reg x).toNat false = false then s.pc + 4#16 else s.pc + 2#16
  | .ldVxK _ => if true ∈ s.keys.toList then s.pc + 2#16 else s.pc
  | .jpV0 nnn =>
    match s.cfg.bnnnTarget with
    | .index => s.pc + 2#16
    | .pc => BitVec.ofNat 16 ((s.reg 0#4).toNat + nnn.toNat)
  | .cls _ | .sys _ | .ldImm _ _ | .addImm _ _ | .ldReg _ _ | .orReg _ _ | .andReg _ _ | .xorReg _ _
  | .addReg _ _ | .subReg _ _ | .shr _ _ | .subnReg _ _ | .shl _ _ | .ldI _ | .rnd _ _ | .drw _ _ _
  | .ldVxDt _ | .ldDtVx _ | .ldStVx _ | .addI _ | .ldF _ | .ldB _ | .stRegs _ | .ldRegs _
  | .nop8 _ | .nope _ | .nopf _ => s.pc + 2#16

/-- The sub-causes an instruction can raise in its execute phase (60_exceptions.md R181, column "raised by"). -/
def canRaise (c : Config) : Instr → List Cause
  | .ret _ => [.stackUnderflow]
  | .call _ => [.stackOverflow]
  | .skp _ | .sknp _ => [.key]
  | .drw _ _ _ => [.memRead, .fb]
  | .ldB _ | .stRegs _ => [.memWrite]
  | .ldRegs _ => if c.fx65Direction = .store then [.memWrite] else [.memRead]
  | .cls _ | .sys _ | .jp _ | .seImm _ _ | .sneImm _ _ | .seReg _ _ _ | .sneReg _ _ _ | .ldImm _ _
  | .addImm _ _ | .ldReg _ _ | .orReg _ _ | .andReg _ _ | .xorReg _ _ | .addReg _ _ | .subReg _ _
  | .shr _ _ | .subnReg _ _ | .shl _ _ | .ldI _ | .jpV0 _ | .rnd _ _ | .ldVxDt _ | .ldVxK _
  | .ldDtVx _ | .ldStVx _ | .addI _ | .ldF _ | .nop8 _ | .nope _ | .nopf _ => []

/-- The registers an instruction may write: its destination, and VF where the rule lists it (10_state.md R22,
00_scope.md R18). -/
def mayWriteReg (c : Config) (r : Nibble) : Instr → Prop
  | .ldImm x _ | .addImm x _ | .orReg x _ | .andReg x _ | .xorReg x _ | .rnd x _ | .ldVxDt x
  | .ldVxK x => r = x
  | .ldReg x _ => r = x ∧ c.op8xy0 = .move
  | .addReg x _ | .subReg x _ | .subnReg x _ | .shr x _ | .shl x _ => r = x ∨ r = 0xF#4
  | .drw _ _ _ => r = 0xF#4
  | .ldRegs x => r.toNat ≤ x.toNat ∧ c.fx65Direction = .load
  | .cls _ | .ret _ | .sys _ | .jp _ | .call _ | .seImm _ _ | .sneImm _ _ | .seReg _ _ _ | .sneReg _ _ _
  | .ldI _ | .jpV0 _ | .skp _ | .sknp _ | .ldDtVx _ | .ldStVx _ | .addI _ | .ldF _ | .ldB _ | .stRegs _
  | .nop8 _ | .nope _ | .nopf _ => False

/-- How many bytes at `I`, `I + 1`, .. an instruction stores to (43_index_and_memory.md R133 to R136). -/
def storedBytes (c : Config) : Instr → Nat
  | .ldB _ => 3
  | .stRegs x => x.toNat + 1
  | .ldRegs x => if c.fx65Direction = .store then x.toNat + 1 else 0
  | .cls _ | .ret _ | .sys _ | .jp _ | .call _ | .seImm _ _ | .sneImm _ _ | .seReg _ _ _ | .sneReg _ _ _
  | .ldImm _ _ | .addImm _ _ | .ldReg _ _ | .orReg _ _ | .andReg _ _ | .xorReg _ _ | .addReg _ _
  | .subReg _ _ | .shr _ _ | .subnReg _ _ | .shl _ _ | .ldI _ | .jpV0 _ | .rnd _ _ | .drw _ _ _ | .skp _
  | .sknp _ | .ldVxDt _ | .ldVxK _ | .ldDtVx _ | .ldStVx _ | .addI _ | .ldF _ | .nop8 _ | .nope _
  | .nopf _ => 0

end Sys2Proof.Claim

open Sys2Proof.Claim

/-! ### Reset, fetch, decode -/

/-- 10_state.md R36: every value after `reset`, for every configuration, and the default of `RESET_PC`, which the
spec takes from general knowledge (assumption log 12). 70_reset_and_hazards.md R210: the host's event `reset`
leaves that state from every state, and no boot done; the model's own counter alone goes on (assumption log 10). -/
def Obligations.ResetGivesTheSpecifiedValues : Prop :=
  (∀ c : Config,
    (∀ a, (State.resetWith c).byte a = 0#8) ∧ (∀ x, (State.resetWith c).reg x = 0#8) ∧
    (∀ i, (State.resetWith c).pixel i = 0#32) ∧ (∀ i : Fin 16, (State.resetWith c).stack[i] = 0#16) ∧
    (∀ k : Fin 16, (State.resetWith c).keys[k] = false) ∧ (State.resetWith c).sp = 0#8 ∧
    (State.resetWith c).pc = c.resetPc ∧ (State.resetWith c).I = 0#16 ∧ (State.resetWith c).dt = 0#8 ∧
    (State.resetWith c).st = 0#8 ∧ (State.resetWith c).ir = 0#16 ∧ (State.resetWith c).fault = none) ∧
  State.reset = State.resetWith Config.default ∧ State.reset.pc = 0x200#16 ∧
  ∀ z : Session,
    z.apply .reset = some ⟨{ State.resetWith z.state.cfg with draws := z.state.draws }, .boot false false⟩

/-- 40_step_cycle.md R80, R81, 20_memory.md R43: while the fetch can be made, the step is `exec` of the
instruction that the two bytes at `pc` decode to, the byte at the lower address high; `exec` itself moves `pc`
past the word and puts the word in `ir`. -/
def Obligations.StepExecutesTheFetchedInstruction : Prop :=
  ∀ (s : State) (i : Instr), s.fault = none → s.pc.toNat + 1 ≤ 4095 →
    decode [s.byte s.pc.toNat, s.byte (s.pc.toNat + 1)] = .ok (i, []) →
    step s = exec i s ∧ i.WellFormed ∧ encode i = s.byte s.pc.toNat ++ s.byte (s.pc.toNat + 1)

/-- 40_step_cycle.md R81, 60_exceptions.md R181 code 1: a fetch that leaves memory faults with the first address
out of range, and changes nothing else. -/
def Obligations.FetchOutsideMemoryFaults : Prop :=
  ∀ s : State, s.fault = none →
    (s.pc.toNat = 4095 → step s = .next (faulted s .fetch 4096)) ∧
    (4096 ≤ s.pc.toNat → step s = .next (faulted s .fetch s.pc.toNat))

/-- 10_state.md R29: a step that completes leaves the fetched word in `ir`; one that faults leaves `ir`. -/
def Obligations.InstructionRegisterHoldsTheFetchedWord : Prop :=
  ∀ s t : State, s.fault = none → step s = .next t →
    (t.fault = none → t.ir = s.byte s.pc.toNat ++ s.byte (s.pc.toNat + 1)) ∧ (t.fault ≠ none → t.ir = s.ir)

/-- 40_step_cycle.md R88: a halted core does not step; only `reset` leaves the halted state; the host's other
events still work; it is no end of a run. -/
def Obligations.HaltedCoreStaysHaltedUntilReset : Prop :=
  (∀ s : State, s.fault ≠ none → step s = .next s ∧ s.endOfRun = false) ∧
  (∀ (z z' : Session) (e : Event), z.state.fault ≠ none → z.apply e = some z' → e ≠ .reset →
    z'.state.fault = z.state.fault) ∧
  (∀ z : Session, ∃ z', z.apply .reset = some z' ∧ z'.state.fault = none) ∧
  (∀ z : Session, z.apply .tick = some ⟨z.state.tick, z.phase⟩ ∧
    (∀ k, z.apply (.setKeys k) = some ⟨z.state.setKeys k, z.phase⟩) ∧
    z.apply .observeFramebuffer = some z ∧ z.apply .observeTimers = some z)

/-- 30_encoding.md R66: every word selects exactly one row, the matching row whose mask has the most one-bits. -/
def Obligations.DecodeTakesTheMostSpecificRow : Prop :=
  ∀ w : Word, (rowOf (decodeWord w)).selectedBy w = true ∧
    ∀ r ∈ opcodeMap, r.selectedBy w = true →
      r = rowOf (decodeWord w) ∨ r.specificity < (rowOf (decodeWord w)).specificity

/-- 30_encoding.md R61, R66: decoding an encoded well-formed instruction gives it back, from its word and from
its bytes with anything after them. -/
def Obligations.DecodeInvertsEncode : Prop :=
  ∀ i : Instr, i.WellFormed →
    decodeWord (encode i) = i ∧ ∀ rest, decode (encodeBytes i ++ rest) = .ok (i, rest)

/-- 30_encoding.md R66, R68: every one of the 65536 words decodes to a well-formed instruction, whose encoding
is that word: no bit is dropped. -/
def Obligations.EncodeInvertsDecode : Prop :=
  ∀ w : Word, (decodeWord w).WellFormed ∧ encode (decodeWord w) = w

/-- Words written out from the map of 30_encoding.md R66, one or more per group. -/
def Obligations.WordsOfTheMapDecode : Prop :=
  decodeWord 0x00E0#16 = .cls 0 ∧ decodeWord 0x00EE#16 = .ret 0 ∧ decodeWord 0x1ABC#16 = .jp 0xABC ∧
  decodeWord 0x332A#16 = .seImm 3 0x2A ∧ decodeWord 0x8124#16 = .addReg 1 2 ∧
  decodeWord 0xD12F#16 = .drw 1 2 15 ∧ decodeWord 0xE59E#16 = .skp 5 ∧ decodeWord 0xF265#16 = .ldRegs 2 ∧
  decodeWord 0xF175#16 = .nopf 0x175

/-- 30_encoding.md R67: no instruction's behaviour depends on a bit it ignores, the word in `ir` apart. -/
def Obligations.IgnoredBitsDoNotMatter : Prop :=
  ∀ (s : State) (x y a b : Nibble) (m n : Imm12),
    SameButIr (exec (.cls a) s) (exec (.cls b) s) ∧ SameButIr (exec (.ret a) s) (exec (.ret b) s) ∧
    SameButIr (exec (.seReg x y a) s) (exec (.seReg x y b) s) ∧
    SameButIr (exec (.sneReg x y a) s) (exec (.sneReg x y b) s) ∧
    SameButIr (exec (.shr x a) s) (exec (.shr x b) s) ∧ SameButIr (exec (.shl x a) s) (exec (.shl x b) s) ∧
    SameButIr (exec (.sys m) s) (exec (.sys n) s) ∧ SameButIr (exec (.nop8 m) s) (exec (.nop8 n) s) ∧
    SameButIr (exec (.nope m) s) (exec (.nope n) s) ∧ SameButIr (exec (.nopf m) s) (exec (.nopf n) s)

/-! ### The no-op words and control transfer -/

/-- 40_step_cycle.md R84 to R87: which words are no-ops (8xy0 too when `OP_8XY0 = noop`), and that they complete
with `pc` and `ir` alone changed. -/
def Obligations.ReservedWordsAreNoOps : Prop :=
  (∀ w : Word, fieldGroup w = 0x0#4 → fieldKk w ∉ [0xE0#8, 0xEE#8] → decodeWord w = .sys (fieldNnn w)) ∧
  (∀ w : Word, fieldGroup w = 0x8#4 → fieldN w ∈ [0x8#4, 0x9#4, 0xA#4, 0xB#4, 0xC#4, 0xD#4, 0xF#4] →
    decodeWord w = .nop8 (fieldNnn w)) ∧
  (∀ w : Word, fieldGroup w = 0xE#4 → fieldKk w ∉ [0x9E#8, 0xA1#8] → decodeWord w = .nope (fieldNnn w)) ∧
  (∀ w : Word, fieldGroup w = 0xF#4 →
    fieldKk w ∉ [0x07#8, 0x0A#8, 0x15#8, 0x18#8, 0x1E#8, 0x29#8, 0x33#8, 0x55#8, 0x65#8] →
    decodeWord w = .nopf (fieldNnn w)) ∧
  (∀ (s : State) (m : Imm12),
    exec (.sys m) s = .next (after s (.sys m)) ∧ exec (.nop8 m) s = .next (after s (.nop8 m)) ∧
    exec (.nope m) s = .next (after s (.nope m)) ∧ exec (.nopf m) s = .next (after s (.nopf m))) ∧
  (∀ (s : State) (x y : Nibble), s.cfg.op8xy0 = .noop →
    exec (.ldReg x y) s = .next (after s (.ldReg x y)))

/-- 41_control_flow.md R91: `RET` pops; with `sp` 0 (or above 16, which no run reaches) it faults with
`sp - 1` in 8 bits. The popped entry keeps its value. -/
def Obligations.ReturnPopsTheStack : Prop :=
  Selects 0x00EE 0xF0FF (fun w => .ret (fieldX w)) ∧
  ∀ (s : State) (ign : Nibble),
    (∀ j : Fin 16, s.sp.toNat = j.val + 1 →
      exec (.ret ign) s =
        .next { after s (.ret ign) with sp := BitVec.ofNat 8 j.val, pc := s.stack[j] }) ∧
    ((s.sp.toNat + 255) % 256 > 15 →
      exec (.ret ign) s = .next (faulted s .stackUnderflow ((s.sp.toNat + 255) % 256)))

/-- 41_control_flow.md R92: `JP nnn`. -/
def Obligations.JumpLoadsTheTarget : Prop :=
  Selects 0x1000 0xF000 (fun w => .jp (fieldNnn w)) ∧
  ∀ (s : State) (nnn : Imm12),
    exec (.jp nnn) s = .next { after s (.jp nnn) with pc := nnn.zeroExtend 16 }

/-- 41_control_flow.md R93: `CALL nnn` pushes the address after it; with 16 entries in use it faults. -/
def Obligations.CallPushesTheReturnAddress : Prop :=
  Selects 0x2000 0xF000 (fun w => .call (fieldNnn w)) ∧
  ∀ (s : State) (nnn : Imm12),
    (∀ j : Fin 16, s.sp.toNat = j.val → ∃ t, exec (.call nnn) s = .next t ∧
      t.stack[j] = s.pc + 2#16 ∧ (∀ k : Fin 16, k ≠ j → t.stack[k] = s.stack[k]) ∧
      t = { after s (.call nnn) with
        stack := t.stack, sp := BitVec.ofNat 8 (s.sp.toNat + 1), pc := nnn.zeroExtend 16 }) ∧
    (s.sp.toNat > 15 → exec (.call nnn) s = .next (faulted s .stackOverflow s.sp.toNat))

/-- 41_control_flow.md R93 (the document's property S6): a call and then a return come back to the address after
the call, with `sp` as before. -/
def Obligations.CallThenReturnComesBack : Prop :=
  ∀ (s : State) (nnn : Imm12) (ign : Nibble), s.sp.toNat ≤ 15 →
    ∃ t u, exec (.call nnn) s = .next t ∧ exec (.ret ign) t = .next u ∧ u.pc = s.pc + 2#16 ∧ u.sp = s.sp

/-- 41_control_flow.md R94, R95: skips on an immediate. -/
def Obligations.ImmediateSkips : Prop :=
  Selects 0x3000 0xF000 (fun w => .seImm (fieldX w) (fieldKk w)) ∧
  Selects 0x4000 0xF000 (fun w => .sneImm (fieldX w) (fieldKk w)) ∧
  ∀ (s : State) (x : Nibble) (kk : Byte),
    exec (.seImm x kk) s = .next { after s (.seImm x kk) with
      pc := if s.reg x = kk then s.pc + 4#16 else s.pc + 2#16 } ∧
    exec (.sneImm x kk) s = .next { after s (.sneImm x kk) with
      pc := if s.reg x ≠ kk then s.pc + 4#16 else s.pc + 2#16 }

/-- 41_control_flow.md R96, R97: skips on two registers. That the low nibble is ignored is 30_encoding.md R65, an
inference which the spec marks as its own (assumption log 31). -/
def Obligations.RegisterSkips : Prop :=
  Selects 0x5000 0xF000 (fun w => .seReg (fieldX w) (fieldY w) (fieldN w)) ∧
  Selects 0x9000 0xF000 (fun w => .sneReg (fieldX w) (fieldY w) (fieldN w)) ∧
  ∀ (s : State) (x y ign : Nibble),
    exec (.seReg x y ign) s = .next { after s (.seReg x y ign) with
      pc := if s.reg x = s.reg y then s.pc + 4#16 else s.pc + 2#16 } ∧
    exec (.sneReg x y ign) s = .next { after s (.sneReg x y ign) with
      pc := if s.reg x ≠ s.reg y then s.pc + 4#16 else s.pc + 2#16 }

/-- 41_control_flow.md R98: Bnnn writes `V[0] + nnn`, not reduced modulo 4096, to `I` (the default) or to `pc`. -/
def Obligations.JumpOffsetGoesToTheConfiguredTarget : Prop :=
  Selects 0xB000 0xF000 (fun w => .jpV0 (fieldNnn w)) ∧ State.reset.cfg.bnnnTarget = .index ∧
  ∀ (s : State) (nnn : Imm12),
    (s.cfg.bnnnTarget = .index → ∃ t, exec (.jpV0 nnn) s = .next t ∧
      t.I.toNat = (s.reg 0#4).toNat + nnn.toNat ∧ t = { after s (.jpV0 nnn) with I := t.I }) ∧
    (s.cfg.bnnnTarget = .pc → ∃ t, exec (.jpV0 nnn) s = .next t ∧
      t.pc.toNat = (s.reg 0#4).toNat + nnn.toNat ∧ t = { after s (.jpV0 nnn) with pc := t.pc })

/-! ### Register loads, ALU, random -/

/-- 42_load_and_alu.md R110: `LD Vx, kk`. -/
def Obligations.LoadImmediateSetsTheRegister : Prop :=
  Selects 0x6000 0xF000 (fun w => .ldImm (fieldX w) (fieldKk w)) ∧
  ∀ (s : State) (x : Nibble) (kk : Byte), WritesReg (.ldImm x kk) s x kk

/-- 42_load_and_alu.md R111: `ADD Vx, kk` wraps and touches no flag. -/
def Obligations.AddImmediateWrapsWithoutFlag : Prop :=
  Selects 0x7000 0xF000 (fun w => .addImm (fieldX w) (fieldKk w)) ∧
  ∀ (s : State) (x : Nibble) (kk : Byte),
    WritesReg (.addImm x kk) s x (BitVec.ofNat 8 (((s.reg x).toNat + kk.toNat) % 256))

/-- 42_load_and_alu.md R114 to R116: the bitwise forms, bit by bit, with no flag. -/
def Obligations.BitwiseFormsWriteNoFlag : Prop :=
  Selects 0x8001 0xF00F (fun w => .orReg (fieldX w) (fieldY w)) ∧
  Selects 0x8002 0xF00F (fun w => .andReg (fieldX w) (fieldY w)) ∧
  Selects 0x8003 0xF00F (fun w => .xorReg (fieldX w) (fieldY w)) ∧
  ∀ (s : State) (x y : Nibble),
    WritesReg (.orReg x y) s x (s.reg x ||| s.reg y) ∧ WritesReg (.andReg x y) s x (s.reg x &&& s.reg y) ∧
    WritesReg (.xorReg x y) s x (s.reg x ^^^ s.reg y)

/-- 42_load_and_alu.md R117: the sum modulo 256, and the carry in VF. -/
def Obligations.AddRegisterSetsCarry : Prop :=
  Selects 0x8004 0xF00F (fun w => .addReg (fieldX w) (fieldY w)) ∧
  ∀ (s : State) (x y : Nibble),
    WritesFlagAndReg (.addReg x y) s x
      (if (s.reg x).toNat + (s.reg y).toNat > 255 then 1#8 else 0#8)
      (BitVec.ofNat 8 (((s.reg x).toNat + (s.reg y).toNat) % 256))

/-- 42_load_and_alu.md R118, R120: the differences modulo 256, and VF by a strict comparison. -/
def Obligations.SubtractionsSetStrictFlag : Prop :=
  Selects 0x8005 0xF00F (fun w => .subReg (fieldX w) (fieldY w)) ∧
  Selects 0x8007 0xF00F (fun w => .subnReg (fieldX w) (fieldY w)) ∧
  ∀ (s : State) (x y : Nibble),
    WritesFlagAndReg (.subReg x y) s x (if (s.reg y).toNat < (s.reg x).toNat then 1#8 else 0#8)
      (BitVec.ofNat 8 (((s.reg x).toNat + 256 - (s.reg y).toNat) % 256)) ∧
    WritesFlagAndReg (.subnReg x y) s x (if (s.reg y).toNat > (s.reg x).toNat then 1#8 else 0#8)
      (BitVec.ofNat 8 (((s.reg y).toNat + 256 - (s.reg x).toNat) % 256))

/-- 42_load_and_alu.md R119, R121: shifts of `Vx` by one, the bit shifted out in VF; `y` is ignored. -/
def Obligations.ShiftsMoveTheLostBitToTheFlag : Prop :=
  Selects 0x8006 0xF00F (fun w => .shr (fieldX w) (fieldY w)) ∧
  Selects 0x800E 0xF00F (fun w => .shl (fieldX w) (fieldY w)) ∧
  ∀ (s : State) (x ign : Nibble),
    WritesFlagAndReg (.shr x ign) s x (BitVec.ofNat 8 ((s.reg x).toNat % 2)) (s.reg x >>> 1) ∧
    WritesFlagAndReg (.shl x ign) s x (BitVec.ofNat 8 ((s.reg x).toNat / 128)) (s.reg x <<< 1)

/-- 42_load_and_alu.md R122: 8xy0 copies, or does nothing, by `OP_8XY0`. Which of the two the default is rests on
general knowledge (assumption log 13); this holds for both. -/
def Obligations.RegisterMoveFollowsTheParameter : Prop :=
  Selects 0x8000 0xF00F (fun w => .ldReg (fieldX w) (fieldY w)) ∧
  ∀ (s : State) (x y : Nibble),
    (s.cfg.op8xy0 = .move → WritesReg (.ldReg x y) s x (s.reg y)) ∧
    (s.cfg.op8xy0 = .noop → exec (.ldReg x y) s = .next (after s (.ldReg x y)))

/-- 42_load_and_alu.md R126: the byte the step carries AND kk, for every byte the host can supply; where the host
supplied none it is the model's free value, some byte (assumption log 3). -/
def Obligations.RandomByteIsMasked : Prop :=
  Selects 0xC000 0xF000 (fun w => .rnd (fieldX w) (fieldKk w)) ∧
  ∀ (s : State) (x : Nibble) (kk : Byte),
    (∀ r : Byte, s.rnd = some r → WritesReg (.rnd x kk) s x (r &&& kk)) ∧
    (s.rnd = none → ∃ r : Byte, WritesReg (.rnd x kk) s x (r &&& kk))

/-! ### The index register and memory -/

/-- 43_index_and_memory.md R130 to R132: what Annn, Fx1E and Fx29 put in `I`. -/
def Obligations.IndexRegisterForms : Prop :=
  Selects 0xA000 0xF000 (fun w => .ldI (fieldNnn w)) ∧ Selects 0xF01E 0xF0FF (fun w => .addI (fieldX w)) ∧
  Selects 0xF029 0xF0FF (fun w => .ldF (fieldX w)) ∧
  ∀ (s : State) (x : Nibble) (nnn : Imm12),
    exec (.ldI nnn) s = .next { after s (.ldI nnn) with I := nnn.zeroExtend 16 } ∧
    exec (.addI x) s = .next { after s (.addI x) with
      I := BitVec.ofNat 16 ((s.I.toNat + (s.reg x).toNat) % 65536) } ∧
    ∃ t, exec (.ldF x) s = .next t ∧ t.I.toNat = 0x50 + 5 * (s.reg x).toNat ∧
      t = { after s (.ldF x) with I := t.I }

/-- 43_index_and_memory.md R133: the three digits at `I`, or a fault at the first address above 4095. -/
def Obligations.BcdStoresThreeDigits : Prop :=
  Selects 0xF033 0xF0FF (fun w => .ldB (fieldX w)) ∧
  ∀ (s : State) (x : Nibble),
    (s.I.toNat ≤ 4093 → StoresBlock (.ldB x) s (s.ea 0) 3 (fun k => BitVec.ofNat 8
      ([(s.reg x).toNat / 100, (s.reg x).toNat / 10 % 10, (s.reg x).toNat % 10].getD k 0))) ∧
    (s.I.toNat > 4093 → exec (.ldB x) s = .next (faulted s .memWrite (firstBad s.I.toNat)))

/-- 43_index_and_memory.md R134: `V[0]..V[x]` at `I`, or a fault at the first address above 4095. -/
def Obligations.StoreRegistersWritesTheBlock : Prop :=
  Selects 0xF055 0xF0FF (fun w => .stRegs (fieldX w)) ∧
  ∀ (s : State) (x : Nibble),
    (s.I.toNat + x.toNat ≤ 4095 →
      StoresBlock (.stRegs x) s (s.ea 0) (x.toNat + 1) (fun k => s.reg (BitVec.ofNat 4 k))) ∧
    (s.I.toNat + x.toNat > 4095 → exec (.stRegs x) s = .next (faulted s .memWrite (firstBad s.I.toNat)))

/-- 43_index_and_memory.md R135: Fx65 stores like Fx55 (the default), or loads, by `FX65_DIRECTION`. -/
def Obligations.LoadRegistersFollowsTheParameter : Prop :=
  Selects 0xF065 0xF0FF (fun w => .ldRegs (fieldX w)) ∧ State.reset.cfg.fx65Direction = .store ∧
  ∀ (s : State) (x : Nibble),
    (s.cfg.fx65Direction = .store → s.I.toNat + x.toNat ≤ 4095 →
      StoresBlock (.ldRegs x) s (s.ea 0) (x.toNat + 1) (fun k => s.reg (BitVec.ofNat 4 k))) ∧
    (s.cfg.fx65Direction = .store → s.I.toNat + x.toNat > 4095 →
      exec (.ldRegs x) s = .next (faulted s .memWrite (firstBad s.I.toNat))) ∧
    (s.cfg.fx65Direction = .load → s.I.toNat + x.toNat ≤ 4095 → ∃ t, exec (.ldRegs x) s = .next t ∧
      (∀ k, k ≤ x.toNat → t.reg (BitVec.ofNat 4 k) = s.byte (s.ea k)) ∧
      (∀ r, x.toNat < r.toNat → t.reg r = s.reg r) ∧ t = { after s (.ldRegs x) with V := t.V }) ∧
    (s.cfg.fx65Direction = .load → s.I.toNat + x.toNat > 4095 →
      exec (.ldRegs x) s = .next (faulted s .memRead (firstBad s.I.toNat)))

/-- 43_index_and_memory.md R135 (the document's property S10): Fx55 and then Fx65 over the same range gives the
registers back, in both directions. -/
def Obligations.StoreThenLoadGivesTheRegistersBack : Prop :=
  ∀ (s : State) (x : Nibble), s.I.toNat + x.toNat ≤ 4095 →
    ∃ t u, exec (.stRegs x) s = .next t ∧ exec (.ldRegs x) t = .next u ∧ (∀ r, u.reg r = s.reg r) ∧
      ∀ k, k ≤ x.toNat → u.byte (s.ea k) = s.reg (BitVec.ofNat 4 k)

/-- 20_memory.md R53, R43: two bytes stored by Fx55 are the word that a fetch there reads, `V[0]` high. -/
def Obligations.StoredBytesAreFetched : Prop :=
  ∀ (s t : State) (x : Nibble), 1 ≤ x.toNat → s.I.toNat + x.toNat ≤ 4095 → exec (.stRegs x) s = .next t →
    fetch { t with pc := s.I } = .ok (s.reg 0#4 ++ s.reg 1#4)

/-! ### The framebuffer -/

/-- 44_display.md R150: `CLS` makes every cell dark, and touches nothing else, VF included. -/
def Obligations.ClearScreenDarkensEveryCell : Prop :=
  Selects 0x00E0 0xF0FF (fun w => .cls (fieldX w)) ∧
  ∀ (s : State) (ign : Nibble), ∃ t, exec (.cls ign) s = .next t ∧ (∀ i, t.pixel i = 0#32) ∧
    t = { after s (.cls ign) with fb := t.fb }

/-- 44_display.md R151, R152: a draw whose sprite bytes are in memory and whose set bits are in the framebuffer
completes; it inverts exactly the cells its set bits address; VF is 1 if one of them was lit before, else 0. -/
def Obligations.DrawTogglesTheSpriteCells : Prop :=
  Selects 0xD000 0xF000 (fun w => .drw (fieldX w) (fieldY w) (fieldN w)) ∧
  ∀ (s : State) (x y n : Nibble), RowsInRange s x y n.toNat →
    ∃ t, exec (.drw x y n) s = .next t ∧
      (∀ i, Toggles s x y n i → t.pixel i = s.pixel i ^^^ 0xFFFFFFFF#32) ∧
      (∀ i, ¬Toggles s x y n i → t.pixel i = s.pixel i) ∧
      ((∃ i, Toggles s x y n i ∧ s.pixel i = 0xFFFFFFFF#32) → t.reg 0xF#4 = 1#8) ∧
      ((¬∃ i, Toggles s x y n i ∧ s.pixel i = 0xFFFFFFFF#32) → t.reg 0xF#4 = 0#8) ∧
      (∀ r, r ≠ 0xF#4 → t.reg r = s.reg r) ∧ t = { after s (.drw x y n) with V := t.V, fb := t.fb }

/-- 60_exceptions.md R187, 44_display.md R152: a draw reports the first access out of range, row by row: the
read of the row's byte, then its set bits from column 0 to 7. It changes nothing else. -/
def Obligations.DrawReportsTheFirstBadAccess : Prop :=
  ∀ (s : State) (x y n : Nibble) (r : Nat), r < n.toNat → RowsInRange s x y r →
    (s.ea r > 4095 → exec (.drw x y n) s = .next (faulted s .memRead (s.ea r))) ∧
    (∀ c, s.ea r ≤ 4095 → c < 8 → spriteSet s r c → cellOf s x y r c > 2047 →
      (∀ c', c' < c → spriteSet s r c' → cellOf s x y r c' ≤ 2047) →
      exec (.drw x y n) s = .next (faulted s .fb (cellOf s x y r c)))

/-- 44_display.md R152 corner case 4, as far as it holds (assumption log 32): from canonical storage with dark or
lit cells, a second draw of the same sprite at the same place (neither position register changed by VF) restores
the framebuffer; it sets VF exactly if one of the sprite's cells was dark before the first draw. -/
def Obligations.DrawingTwiceRestoresTheFramebuffer : Prop :=
  ∀ (s t : State) (x y n : Nibble), s.Inv → RowsInRange s x y n.toNat → exec (.drw x y n) s = .next t →
    t.reg x = s.reg x → t.reg y = s.reg y →
    ∃ u, exec (.drw x y n) t = .next u ∧ u.fb = s.fb ∧
      ((∃ i, Toggles s x y n i ∧ s.pixel i = 0#32) → u.reg 0xF#4 = 1#8) ∧
      ((¬∃ i, Toggles s x y n i ∧ s.pixel i = 0#32) → u.reg 0xF#4 = 0#8)

/-! ### Keys and timers -/

/-- 45_keys_and_timers.md R160 to R162: the key skips, and the fault on a key number above 15, not masked. -/
def Obligations.KeySkips : Prop :=
  Selects 0xE09E 0xF0FF (fun w => .skp (fieldX w)) ∧ Selects 0xE0A1 0xF0FF (fun w => .sknp (fieldX w)) ∧
  ∀ (s : State) (x : Nibble),
    (∀ k : Fin 16, (s.reg x).toNat = k.val →
      exec (.skp x) s = .next { after s (.skp x) with
        pc := if s.keys[k] = true then s.pc + 4#16 else s.pc + 2#16 } ∧
      exec (.sknp x) s = .next { after s (.sknp x) with
        pc := if s.keys[k] = false then s.pc + 4#16 else s.pc + 2#16 }) ∧
    ((s.reg x).toNat > 15 →
      exec (.skp x) s = .next (faulted s .key (s.reg x).toNat) ∧
      exec (.sknp x) s = .next (faulted s .key (s.reg x).toNat))

/-- 45_keys_and_timers.md R163: Fx0A takes the lowest key that is down, or leaves `pc` at itself. -/
def Obligations.WaitForKeyTakesTheLowest : Prop :=
  Selects 0xF00A 0xF0FF (fun w => .ldVxK (fieldX w)) ∧
  ∀ (s : State) (x : Nibble),
    (∀ k : Fin 16, s.keys[k] = true → (∀ j : Fin 16, j < k → s.keys[j] = false) →
      WritesReg (.ldVxK x) s x (BitVec.ofNat 8 k.val)) ∧
    ((∀ k : Fin 16, s.keys[k] = false) →
      exec (.ldVxK x) s = .next { after s (.ldVxK x) with pc := s.pc })

/-- 45_keys_and_timers.md R164 to R166: the timer forms. Which word does which copy rests on general knowledge,
as R168 says (assumption log 20). -/
def Obligations.TimerForms : Prop :=
  Selects 0xF007 0xF0FF (fun w => .ldVxDt (fieldX w)) ∧ Selects 0xF015 0xF0FF (fun w => .ldDtVx (fieldX w)) ∧
  Selects 0xF018 0xF0FF (fun w => .ldStVx (fieldX w)) ∧
  ∀ (s : State) (x : Nibble),
    WritesReg (.ldVxDt x) s x s.dt ∧
    exec (.ldDtVx x) s = .next { after s (.ldDtVx x) with dt := s.reg x } ∧
    exec (.ldStVx x) s = .next { after s (.ldStVx x) with st := s.reg x }

/-- 60_exceptions.md R196: a tick takes one from each timer that is not 0 and changes nothing else. That a timer
stays at 0 rests on general knowledge, as R196 says (assumption log 19). -/
def Obligations.TickDecrementsBothTimers : Prop :=
  ∀ s : State, s.tick.dt.toNat = s.dt.toNat - 1 ∧ s.tick.st.toNat = s.st.toNat - 1 ∧
    s.tick = { s with dt := s.tick.dt, st := s.tick.st } ∧
    ∀ z : Session, z.apply .tick = some ⟨z.state.tick, z.phase⟩

/-! ### The host's other events -/

/-- 60_exceptions.md R199, R198, R200: `set_keys` replaces all flags and nothing else; the observations return
what the state holds and change nothing. 10_state.md R33, 60_exceptions.md R181, R184, 70_reset_and_hazards.md
R227: so does the reading of the fault latch, which is `none` or the code, the address and the info. -/
def Obligations.HostReadsAndWritesItsSurfaces : Prop :=
  ∀ (z : Session) (k : Vector Bool 16),
    z.apply (.setKeys k) = some ⟨{ z.state with keys := k }, z.phase⟩ ∧
    z.apply .observeFramebuffer = some z ∧ z.state.observeFramebuffer.length = 2048 ∧
    (∀ i, i < 2048 → z.state.observeFramebuffer[i]? = some (z.state.pixel i)) ∧
    z.apply .observeTimers = some z ∧ z.state.observeTimers = (z.state.dt, z.state.st) ∧
    z.apply .observeFault = some z ∧ (z.state.fault = none → z.state.observeFault = none) ∧
    ∀ (a : Word) (i : Nat),
      ({ z.state with fault := some ⟨.fetch, a, i⟩ } : State).observeFault = some (1, a, i) ∧
      ({ z.state with fault := some ⟨.memRead, a, i⟩ } : State).observeFault = some (2, a, i) ∧
      ({ z.state with fault := some ⟨.memWrite, a, i⟩ } : State).observeFault = some (3, a, i) ∧
      ({ z.state with fault := some ⟨.fb, a, i⟩ } : State).observeFault = some (4, a, i) ∧
      ({ z.state with fault := some ⟨.key, a, i⟩ } : State).observeFault = some (5, a, i) ∧
      ({ z.state with fault := some ⟨.stackOverflow, a, i⟩ } : State).observeFault = some (6, a, i) ∧
      ({ z.state with fault := some ⟨.stackUnderflow, a, i⟩ } : State).observeFault = some (7, a, i)

/-- 70_reset_and_hazards.md R215: `load_glyphs` writes the table to 0x050..0x09F and nothing else, and doing it
again changes nothing. -/
def Obligations.LoadGlyphsWritesTheTable : Prop :=
  ∀ s : State, (∀ j : Fin 80, s.loadGlyphs.byte (0x50 + j.val) = s.cfg.glyphTable[j]) ∧
    (∀ a, a < 0x50 ∨ 0x9F < a → s.loadGlyphs.byte a = s.byte a) ∧
    s.loadGlyphs = { s with mem := s.loadGlyphs.mem } ∧
    (∀ a, s.loadGlyphs.loadGlyphs.byte a = s.loadGlyphs.byte a)

/-- 70_reset_and_hazards.md R217: `load_program` copies 1 to 3584 bytes to 0x200.., or fails and leaves the
machine and the boot as they were. -/
def Obligations.LoadProgramCopiesOrFails : Prop :=
  ∀ (s : State) (bytes : List Byte),
    (bytes.length = 0 → s.loadProgram bytes = .error .emptyProgram) ∧
    (bytes.length > 3584 → s.loadProgram bytes = .error .programTooLarge) ∧
    (1 ≤ bytes.length → bytes.length ≤ 3584 → ∃ t, s.loadProgram bytes = .ok t ∧
      (∀ j, j < bytes.length → some (t.byte (0x200 + j)) = bytes[j]?) ∧
      (∀ a, a < 0x200 ∨ 0x200 + bytes.length ≤ a → t.byte a = s.byte a) ∧ t = { s with mem := t.mem }) ∧
    (∀ g : Bool, bytes.length = 0 ∨ bytes.length > 3584 →
      Session.apply (.loadProgram bytes) ⟨s, .boot g false⟩ = some ⟨s, .boot g false⟩)

/-- 70_reset_and_hazards.md R213: after `reset` the two loads, in either order, give the same machine: the reset
state with the two ranges filled. -/
def Obligations.BootOrderDoesNotMatter : Prop :=
  ∀ (c : Config) (bytes : List Byte), 1 ≤ bytes.length → bytes.length ≤ 3584 →
    ∃ z, Session.run [.loadGlyphs, .loadProgram bytes] (Session.start c) = some z ∧
      Session.run [.loadProgram bytes, .loadGlyphs] (Session.start c) = some z ∧
      z.phase = .boot true true ∧ z.state = { State.resetWith c with mem := z.state.mem } ∧
      ∀ a, z.state.byte a =
        if 0x50 ≤ a ∧ a < 0xA0 then c.glyphTable.toList.getD (a - 0x50) 0#8
        else if 0x200 ≤ a ∧ a < 0x200 + bytes.length then bytes.getD (a - 0x200) 0#8 else 0#8

/-- 70_reset_and_hazards.md R213, R219: the host has no `step` before the boot is complete and no load after the
first step; a step always leads on (assumption log 9). After a successful `load_program` and before the first step
there is no second one, and a failing one changes nothing (assumption log 37, the model's choice). -/
def Obligations.BootComesBeforeTheFirstStep : Prop :=
  (∀ (z z' : Session) (e : Event), z.apply e = some z' →
    (∀ b, e = .step b → z.phase = .boot true true ∨ z.phase = .running) ∧
    (z.phase = .running → e ≠ .loadGlyphs ∧ ∀ bytes, e ≠ .loadProgram bytes) ∧
    (z'.phase = .running ↔ z.phase = .running ∧ e ≠ .reset ∨ ∃ b, e = .step b)) ∧
  ∀ (s : State) (g : Bool) (bytes : List Byte),
    Session.apply (.loadProgram bytes) ⟨s, .boot g true⟩ =
      if 1 ≤ bytes.length ∧ bytes.length ≤ 3584 then none else some ⟨s, .boot g true⟩

/-! ### Faults -/

/-- 40_step_cycle.md R80: the step is total. -/
def Obligations.StepAlwaysAnswersANextState : Prop :=
  (∀ s : State, ∃ t, step s = .next t) ∧ ∀ (i : Instr) (s : State), ∃ t, exec i s = .next t

/-- 60_exceptions.md R182: a step that raises discards all its writes; the latch alone is new, and names the
instruction's address; every later step changes nothing. -/
def Obligations.FaultsArePrecise : Prop :=
  ∀ s t : State, s.fault = none → step s = .next t → t.fault ≠ none →
    (∃ c info, t = faulted s c info) ∧ step t = .next t

/-- 60_exceptions.md R181: which instruction can raise which sub-cause; those with none never fault in their
execute phase. -/
def Obligations.OnlyTheListedInstructionsRaise : Prop :=
  ∀ (i : Instr) (s t : State) (f : FaultRecord), s.fault = none → exec i s = .next t → t.fault = some f →
    f.cause ∈ canRaise s.cfg i

/-! ### Whole-machine rules -/

/-- 10_state.md R38: the invariant holds after `reset` (in every configuration whose entry point is at most
4098, the default among them; the premise is assumption log 33). -/
def Obligations.InvariantHoldsAtReset : Prop :=
  State.reset.Inv ∧ ∀ c : Config, c.resetPc.toNat ≤ 4098 → (State.resetWith c).Inv

/-- 10_state.md R38: every step keeps canonical storage, dark-or-lit cells, `sp <= 16`, and, when
`BNNN_TARGET = index`, `pc <= 4098` and the entries in use at most 4096. -/
def Obligations.StepKeepsTheInvariant : Prop :=
  ∀ s t : State, s.Inv → step s = .next t → t.Inv

/-- 10_state.md R38: every state that the events of 00_scope.md R11 reach from `reset` has the invariant. The host's
moves are those of assumption log 9; the premise on the entry point is assumption log 33. -/
def Obligations.EveryReachableStateHasTheInvariant : Prop :=
  ∀ (c : Config) (es : List Event) (z : Session), c.resetPc.toNat ≤ 4098 →
    Session.run es (Session.start c) = some z → z.state.Inv

/-- 10_state.md R23: the `pc` after a completed step, for every instruction; after a fault it is as before. -/
def Obligations.NextPcFollowsTheTable : Prop :=
  ∀ (i : Instr) (s t : State), s.fault = none → exec i s = .next t →
    (t.fault = none → t.pc = nextPc s i) ∧ (t.fault ≠ none → t.pc = s.pc)

/-- 10_state.md R22, 00_scope.md R18: a register changes only as the destination of the instruction, or as VF of
a flag-writing one. -/
def Obligations.RegistersChangeOnlyWhereWritten : Prop :=
  ∀ (i : Instr) (s t : State) (r : Nibble), exec i s = .next t → ¬mayWriteReg s.cfg r i → t.reg r = s.reg r

/-- 43_index_and_memory.md R136, 00_scope.md R18: a completed instruction leaves every byte of memory outside the
ones it stores to, `I + k` for the `k` of its row, and an instruction that stores none leaves all. -/
def Obligations.MemoryChangesOnlyWhereStored : Prop :=
  ∀ (i : Instr) (s t : State) (a : Nat), exec i s = .next t →
    (∀ k, k < storedBytes s.cfg i → a ≠ s.ea k) → t.byte a = s.byte a

/-- 10_state.md R37, the core's column, R27, R28, R30: which instructions write the framebuffer, the stack, `I`
and the timers; none writes the keys, and no step ticks a timer. -/
def Obligations.SpecialStateChangesOnlyWhereWritten : Prop :=
  ∀ (i : Instr) (s t : State), exec i s = .next t →
    t.keys = s.keys ∧ t.cfg = s.cfg ∧
    ((∀ a, i ≠ .cls a) → (∀ x y n, i ≠ .drw x y n) → t.fb = s.fb) ∧
    ((∀ a, i ≠ .ret a) → (∀ n, i ≠ .call n) → t.sp = s.sp) ∧ ((∀ n, i ≠ .call n) → t.stack = s.stack) ∧
    ((∀ n, i ≠ .ldI n) → (∀ x, i ≠ .addI x) → (∀ x, i ≠ .ldF x) →
      (∀ n, i = .jpV0 n → s.cfg.bnnnTarget = .pc) → t.I = s.I) ∧
    ((∀ x, i ≠ .ldDtVx x) → t.dt = s.dt) ∧ ((∀ x, i ≠ .ldStVx x) → t.st = s.st)

/-- 10_state.md R29, R28: no step reads `ir` or the sound timer: from two states that differ in those alone, a
step answers states that differ in those alone. -/
def Obligations.StepReadsNeitherIrNorTheSoundTimer : Prop :=
  ∀ (s t t' : State) (w : Word) (b : Byte), step s = .next t → step { s with ir := w, st := b } = .next t' →
    { t with ir := 0#16, st := 0#8 } = { t' with ir := 0#16, st := 0#8 }

/-- 00_scope.md R11, 60_exceptions.md R201: only Cxkk uses the random byte: any other instruction does the same
with every byte and every index of the free value. -/
def Obligations.OnlyRndUsesTheRandomByte : Prop :=
  ∀ (i : Instr) (s t t' : State) (r : Option Byte) (d : Nat), (∀ x kk, i ≠ .rnd x kk) →
    exec i s = .next t → exec i { s with rnd := r, draws := d } = .next t' →
    { t with rnd := none, draws := 0 } = { t' with rnd := none, draws := 0 }

/-- 70_reset_and_hazards.md R226, 00_scope.md R8: a self-jump is the default of `END_OF_RUN` (the spec's choice D23,
assumption log 11); by it a state that is not halted is at its end exactly if the two bytes at `pc` are a `JP` to
`pc`. From there a step changes `ir` alone (and the model's own random input), and the run is still at its end; so
it is after the host's ticks and key writes. -/
def Obligations.EndOfRunIsAFixedPoint : Prop :=
  State.reset.cfg.endOfRun = .selfJump ∧
  ∀ s : State, s.cfg.endOfRun = .selfJump →
    (s.fault = none → (s.endOfRun = true ↔ s.pc.toNat ≤ 4094 ∧ ∃ nnn : Imm12, nnn.toNat = s.pc.toNat ∧
      s.byte s.pc.toNat ++ s.byte (s.pc.toNat + 1) = encode (.jp nnn))) ∧
    (s.endOfRun = true → (∃ t, step s = .next t ∧ t.endOfRun = true ∧
      t = { s with ir := s.byte s.pc.toNat ++ s.byte (s.pc.toNat + 1), rnd := none, draws := s.draws + 1 }) ∧
    s.tick.endOfRun = true ∧ ∀ k, (s.setKeys k).endOfRun = true)

/-- How a word is placed for the next step (assumption log 8): from every state, the next step executes it. -/
def Obligations.PlacedWordIsExecuted : Prop :=
  ∀ (s : State) (w : Nat), w < 65536 →
    step (s.withFetchWord 16 w) = exec (decodeWord (BitVec.ofNat 16 w)) (s.withFetchWord 16 w) ∧
    decodeTableWord 16 w = some (decodeWord (BitVec.ofNat 16 w))

/-- 10_state.md R38: every event of 00_scope.md R11 keeps the invariant, from every state that has it, the core's
step and the host's events alike. The host's moves are those of assumption log 9; the premise on the entry point,
which `reset` needs, is assumption log 33. -/
def Obligations.EveryEventKeepsTheInvariant : Prop :=
  ∀ (z z' : Session) (e : Event), z.state.Inv → z.state.cfg.resetPc.toNat ≤ 4098 → z.apply e = some z' →
    z'.state.Inv
end

