-- ==== Sys2Proof/Laws/Decode.lean ====
section
/-! SUPPORT. Fields and layouts of a word as numbers (30_encoding.md R61), each field of each layout, each word
put together again from its fields, and what the masks of the opcode map select. -/

namespace Sys2Proof

/-! ### As numbers -/

theorem toNat_fieldGroup (w : Word) : (fieldGroup w).toNat = w.toNat / 4096 := by
  have := w.isLt
  simp only [fieldGroup, BitVec.extractLsb'_toNat, Nat.shiftRight_eq_div_pow]
  omega

theorem toNat_fieldX (w : Word) : (fieldX w).toNat = w.toNat / 256 % 16 := by
  simp [fieldX, BitVec.extractLsb'_toNat, Nat.shiftRight_eq_div_pow]

theorem toNat_fieldY (w : Word) : (fieldY w).toNat = w.toNat / 16 % 16 := by
  simp [fieldY, BitVec.extractLsb'_toNat, Nat.shiftRight_eq_div_pow]

theorem toNat_fieldN (w : Word) : (fieldN w).toNat = w.toNat % 16 := by
  simp [fieldN, BitVec.extractLsb'_toNat]

theorem toNat_fieldKk (w : Word) : (fieldKk w).toNat = w.toNat % 256 := by
  simp [fieldKk, BitVec.extractLsb'_toNat]

theorem toNat_fieldNnn (w : Word) : (fieldNnn w).toNat = w.toNat % 4096 := by
  simp [fieldNnn, BitVec.extractLsb'_toNat]

theorem toNat_lowByteOf (a : Imm12) : (lowByteOf a).toNat = a.toNat % 256 := by
  simp [lowByteOf, BitVec.extractLsb'_toNat]

theorem toNat_lowNibbleOf (a : Imm12) : (lowNibbleOf a).toNat = a.toNat % 16 := by
  simp [lowNibbleOf, BitVec.extractLsb'_toNat]

theorem toNat_append {n m : Nat} (a : BitVec n) (b : BitVec m) :
    (a ++ b).toNat = a.toNat * 2 ^ m + b.toNat := by
  rw [BitVec.toNat_append, Nat.shiftLeft_eq, Nat.mul_comm, Nat.two_pow_add_eq_or_of_lt b.isLt]

theorem toNat_layoutNnn (g : Nibble) (a : Imm12) : (layoutNnn g a).toNat = g.toNat * 4096 + a.toNat :=
  toNat_append g a

theorem toNat_layoutXKk (g x : Nibble) (k : Byte) :
    (layoutXKk g x k).toNat = g.toNat * 4096 + x.toNat * 256 + k.toNat := by
  have h := toNat_append (g ++ x) k
  rw [toNat_append g x] at h
  have h' : (layoutXKk g x k).toNat = _ := h
  rw [h']; omega

theorem toNat_layoutXYN (g x y n : Nibble) :
    (layoutXYN g x y n).toNat = g.toNat * 4096 + x.toNat * 256 + y.toNat * 16 + n.toNat := by
  have h := toNat_append (g ++ x ++ y) n
  rw [toNat_append (g ++ x) y, toNat_append g x] at h
  have h' : (layoutXYN g x y n).toNat = _ := h
  rw [h']; omega

/-! ### Each field of each layout -/

section
variable (g x y n : Nibble) (k : Byte) (a : Imm12)

@[simp] theorem fieldGroup_layoutNnn : fieldGroup (layoutNnn g a) = g := by
  apply BitVec.eq_of_toNat_eq; rw [toNat_fieldGroup, toNat_layoutNnn]; bv_omega

@[simp] theorem fieldNnn_layoutNnn : fieldNnn (layoutNnn g a) = a := by
  apply BitVec.eq_of_toNat_eq; rw [toNat_fieldNnn, toNat_layoutNnn]; bv_omega

@[simp] theorem fieldKk_layoutNnn : fieldKk (layoutNnn g a) = lowByteOf a := by
  apply BitVec.eq_of_toNat_eq; rw [toNat_fieldKk, toNat_layoutNnn, toNat_lowByteOf]; bv_omega

@[simp] theorem fieldN_layoutNnn : fieldN (layoutNnn g a) = lowNibbleOf a := by
  apply BitVec.eq_of_toNat_eq; rw [toNat_fieldN, toNat_layoutNnn, toNat_lowNibbleOf]; bv_omega

@[simp] theorem fieldGroup_layoutXKk : fieldGroup (layoutXKk g x k) = g := by
  apply BitVec.eq_of_toNat_eq; rw [toNat_fieldGroup, toNat_layoutXKk]; bv_omega

@[simp] theorem fieldX_layoutXKk : fieldX (layoutXKk g x k) = x := by
  apply BitVec.eq_of_toNat_eq; rw [toNat_fieldX, toNat_layoutXKk]; bv_omega

@[simp] theorem fieldKk_layoutXKk : fieldKk (layoutXKk g x k) = k := by
  apply BitVec.eq_of_toNat_eq; rw [toNat_fieldKk, toNat_layoutXKk]; bv_omega

@[simp] theorem fieldGroup_layoutXYN : fieldGroup (layoutXYN g x y n) = g := by
  apply BitVec.eq_of_toNat_eq; rw [toNat_fieldGroup, toNat_layoutXYN]; bv_omega

@[simp] theorem fieldX_layoutXYN : fieldX (layoutXYN g x y n) = x := by
  apply BitVec.eq_of_toNat_eq; rw [toNat_fieldX, toNat_layoutXYN]; bv_omega

@[simp] theorem fieldY_layoutXYN : fieldY (layoutXYN g x y n) = y := by
  apply BitVec.eq_of_toNat_eq; rw [toNat_fieldY, toNat_layoutXYN]; bv_omega

@[simp] theorem fieldN_layoutXYN : fieldN (layoutXYN g x y n) = n := by
  apply BitVec.eq_of_toNat_eq; rw [toNat_fieldN, toNat_layoutXYN]; bv_omega

end

/-! ### Each word from its fields -/

theorem layoutNnn_fields (w : Word) : layoutNnn (fieldGroup w) (fieldNnn w) = w := by
  apply BitVec.eq_of_toNat_eq; rw [toNat_layoutNnn, toNat_fieldGroup, toNat_fieldNnn]; omega

theorem layoutXKk_fields (w : Word) : layoutXKk (fieldGroup w) (fieldX w) (fieldKk w) = w := by
  apply BitVec.eq_of_toNat_eq
  rw [toNat_layoutXKk, toNat_fieldGroup, toNat_fieldX, toNat_fieldKk]; omega

theorem layoutXYN_fields (w : Word) :
    layoutXYN (fieldGroup w) (fieldX w) (fieldY w) (fieldN w) = w := by
  apply BitVec.eq_of_toNat_eq
  rw [toNat_layoutXYN, toNat_fieldGroup, toNat_fieldX, toNat_fieldY, toNat_fieldN]; omega

/-- The low byte of a word's `nnn` is its `kk`. -/
@[simp] theorem lowByteOf_fieldNnn (w : Word) : lowByteOf (fieldNnn w) = fieldKk w := by
  apply BitVec.eq_of_toNat_eq; rw [toNat_lowByteOf, toNat_fieldNnn, toNat_fieldKk]; omega

/-- The low nibble of a word's `nnn` is its `n`. -/
@[simp] theorem lowNibbleOf_fieldNnn (w : Word) : lowNibbleOf (fieldNnn w) = fieldN w := by
  apply BitVec.eq_of_toNat_eq; rw [toNat_lowNibbleOf, toNat_fieldNnn, toNat_fieldN]; omega

/-! ### What the masks of the opcode map keep (R64) -/

/-- Mask 0xF000 keeps the group. -/
theorem and_groupMask (w : Word) : w &&& 0xF000#16 = layoutNnn (fieldGroup w) 0#12 := by
  apply BitVec.eq_of_toNat_eq
  rw [toNat_layoutNnn, toNat_fieldGroup]
  have h : w &&& 0xF000#16 = (w >>> 12) <<< 12 := by
    ext i hi; interval_cases i <;> simp
  have := w.isLt
  rw [h]; simp [Nat.shiftRight_eq_div_pow, Nat.shiftLeft_eq]; omega

/-- Mask 0xF0FF keeps the group and the low byte. -/
theorem and_byteMask (w : Word) : w &&& 0xF0FF#16 = layoutXKk (fieldGroup w) 0#4 (fieldKk w) := by
  apply BitVec.eq_of_toNat_eq
  rw [toNat_layoutXKk, toNat_fieldGroup, toNat_fieldKk]
  have h : w &&& 0xF0FF#16 = ((w >>> 12) <<< 12) ||| (w &&& 0xFF#16) := by
    ext i hi; interval_cases i <;> simp
  have h2 : ((w >>> 12) <<< 12) ||| (w &&& 0xFF#16) = ((w >>> 12) <<< 12) + (w &&& 0xFF#16) := by
    rw [BitVec.add_eq_or_of_and_eq_zero]
    ext i hi; interval_cases i <;> simp
  have h3 : (w &&& 0xFF#16).toNat = w.toNat % 256 := by
    simpa using Nat.and_two_pow_sub_one_eq_mod w.toNat 8
  have := w.isLt
  rw [h, h2, BitVec.toNat_add, h3]
  simp [Nat.shiftRight_eq_div_pow, Nat.shiftLeft_eq]; omega

/-- Mask 0xF00F keeps the group and the low nibble. -/
theorem and_nibbleMask (w : Word) : w &&& 0xF00F#16 = layoutXYN (fieldGroup w) 0#4 0#4 (fieldN w) := by
  apply BitVec.eq_of_toNat_eq
  rw [toNat_layoutXYN, toNat_fieldGroup, toNat_fieldN]
  have h : w &&& 0xF00F#16 = ((w >>> 12) <<< 12) ||| (w &&& 0xF#16) := by
    ext i hi; interval_cases i <;> simp
  have h2 : ((w >>> 12) <<< 12) ||| (w &&& 0xF#16) = ((w >>> 12) <<< 12) + (w &&& 0xF#16) := by
    rw [BitVec.add_eq_or_of_and_eq_zero]
    ext i hi; interval_cases i <;> simp
  have h3 : (w &&& 0xF#16).toNat = w.toNat % 16 := by
    simpa using Nat.and_two_pow_sub_one_eq_mod w.toNat 4
  have := w.isLt
  rw [h, h2, BitVec.toNat_add, h3]
  simp [Nat.shiftRight_eq_div_pow, Nat.shiftLeft_eq]; omega

end Sys2Proof
end

