-- ==== Sys2Proof/Laws/State.lean ====
section
/-! SUPPORT. One lemma per field per named update of the state, and what a register read gives after a register
write, so that no later proof unfolds a record update. -/

namespace Sys2Proof.Machine

@[simp] theorem State.setReg_cfg (s : State) (x : Nibble) (b : Byte) :
    (s.setReg x b).cfg = s.cfg := rfl
@[simp] theorem State.setReg_mem (s : State) (x : Nibble) (b : Byte) :
    (s.setReg x b).mem = s.mem := rfl
@[simp] theorem State.setReg_V (s : State) (x : Nibble) (b : Byte) :
    (s.setReg x b).V = s.V.set x.toNat b x.isLt := rfl
@[simp] theorem State.setReg_fb (s : State) (x : Nibble) (b : Byte) :
    (s.setReg x b).fb = s.fb := rfl
@[simp] theorem State.setReg_stack (s : State) (x : Nibble) (b : Byte) :
    (s.setReg x b).stack = s.stack := rfl
@[simp] theorem State.setReg_sp (s : State) (x : Nibble) (b : Byte) :
    (s.setReg x b).sp = s.sp := rfl
@[simp] theorem State.setReg_keys (s : State) (x : Nibble) (b : Byte) :
    (s.setReg x b).keys = s.keys := rfl
@[simp] theorem State.setReg_pc (s : State) (x : Nibble) (b : Byte) :
    (s.setReg x b).pc = s.pc := rfl
@[simp] theorem State.setReg_I (s : State) (x : Nibble) (b : Byte) :
    (s.setReg x b).I = s.I := rfl
@[simp] theorem State.setReg_dt (s : State) (x : Nibble) (b : Byte) :
    (s.setReg x b).dt = s.dt := rfl
@[simp] theorem State.setReg_st (s : State) (x : Nibble) (b : Byte) :
    (s.setReg x b).st = s.st := rfl
@[simp] theorem State.setReg_ir (s : State) (x : Nibble) (b : Byte) :
    (s.setReg x b).ir = s.ir := rfl
@[simp] theorem State.setReg_fault (s : State) (x : Nibble) (b : Byte) :
    (s.setReg x b).fault = s.fault := rfl
@[simp] theorem State.setReg_rnd (s : State) (x : Nibble) (b : Byte) :
    (s.setReg x b).rnd = s.rnd := rfl
@[simp] theorem State.setReg_draws (s : State) (x : Nibble) (b : Byte) :
    (s.setReg x b).draws = s.draws := rfl

@[simp] theorem State.setPc_cfg (s : State) (a : Word) :
    (s.setPc a).cfg = s.cfg := rfl
@[simp] theorem State.setPc_mem (s : State) (a : Word) :
    (s.setPc a).mem = s.mem := rfl
@[simp] theorem State.setPc_V (s : State) (a : Word) :
    (s.setPc a).V = s.V := rfl
@[simp] theorem State.setPc_fb (s : State) (a : Word) :
    (s.setPc a).fb = s.fb := rfl
@[simp] theorem State.setPc_stack (s : State) (a : Word) :
    (s.setPc a).stack = s.stack := rfl
@[simp] theorem State.setPc_sp (s : State) (a : Word) :
    (s.setPc a).sp = s.sp := rfl
@[simp] theorem State.setPc_keys (s : State) (a : Word) :
    (s.setPc a).keys = s.keys := rfl
@[simp] theorem State.setPc_pc (s : State) (a : Word) :
    (s.setPc a).pc = a := rfl
@[simp] theorem State.setPc_I (s : State) (a : Word) :
    (s.setPc a).I = s.I := rfl
@[simp] theorem State.setPc_dt (s : State) (a : Word) :
    (s.setPc a).dt = s.dt := rfl
@[simp] theorem State.setPc_st (s : State) (a : Word) :
    (s.setPc a).st = s.st := rfl
@[simp] theorem State.setPc_ir (s : State) (a : Word) :
    (s.setPc a).ir = s.ir := rfl
@[simp] theorem State.setPc_fault (s : State) (a : Word) :
    (s.setPc a).fault = s.fault := rfl
@[simp] theorem State.setPc_rnd (s : State) (a : Word) :
    (s.setPc a).rnd = s.rnd := rfl
@[simp] theorem State.setPc_draws (s : State) (a : Word) :
    (s.setPc a).draws = s.draws := rfl

@[simp] theorem State.setI_cfg (s : State) (a : Word) :
    (s.setI a).cfg = s.cfg := rfl
@[simp] theorem State.setI_mem (s : State) (a : Word) :
    (s.setI a).mem = s.mem := rfl
@[simp] theorem State.setI_V (s : State) (a : Word) :
    (s.setI a).V = s.V := rfl
@[simp] theorem State.setI_fb (s : State) (a : Word) :
    (s.setI a).fb = s.fb := rfl
@[simp] theorem State.setI_stack (s : State) (a : Word) :
    (s.setI a).stack = s.stack := rfl
@[simp] theorem State.setI_sp (s : State) (a : Word) :
    (s.setI a).sp = s.sp := rfl
@[simp] theorem State.setI_keys (s : State) (a : Word) :
    (s.setI a).keys = s.keys := rfl
@[simp] theorem State.setI_pc (s : State) (a : Word) :
    (s.setI a).pc = s.pc := rfl
@[simp] theorem State.setI_I (s : State) (a : Word) :
    (s.setI a).I = a := rfl
@[simp] theorem State.setI_dt (s : State) (a : Word) :
    (s.setI a).dt = s.dt := rfl
@[simp] theorem State.setI_st (s : State) (a : Word) :
    (s.setI a).st = s.st := rfl
@[simp] theorem State.setI_ir (s : State) (a : Word) :
    (s.setI a).ir = s.ir := rfl
@[simp] theorem State.setI_fault (s : State) (a : Word) :
    (s.setI a).fault = s.fault := rfl
@[simp] theorem State.setI_rnd (s : State) (a : Word) :
    (s.setI a).rnd = s.rnd := rfl
@[simp] theorem State.setI_draws (s : State) (a : Word) :
    (s.setI a).draws = s.draws := rfl

@[simp] theorem State.setSp_cfg (s : State) (b : Byte) :
    (s.setSp b).cfg = s.cfg := rfl
@[simp] theorem State.setSp_mem (s : State) (b : Byte) :
    (s.setSp b).mem = s.mem := rfl
@[simp] theorem State.setSp_V (s : State) (b : Byte) :
    (s.setSp b).V = s.V := rfl
@[simp] theorem State.setSp_fb (s : State) (b : Byte) :
    (s.setSp b).fb = s.fb := rfl
@[simp] theorem State.setSp_stack (s : State) (b : Byte) :
    (s.setSp b).stack = s.stack := rfl
@[simp] theorem State.setSp_sp (s : State) (b : Byte) :
    (s.setSp b).sp = b := rfl
@[simp] theorem State.setSp_keys (s : State) (b : Byte) :
    (s.setSp b).keys = s.keys := rfl
@[simp] theorem State.setSp_pc (s : State) (b : Byte) :
    (s.setSp b).pc = s.pc := rfl
@[simp] theorem State.setSp_I (s : State) (b : Byte) :
    (s.setSp b).I = s.I := rfl
@[simp] theorem State.setSp_dt (s : State) (b : Byte) :
    (s.setSp b).dt = s.dt := rfl
@[simp] theorem State.setSp_st (s : State) (b : Byte) :
    (s.setSp b).st = s.st := rfl
@[simp] theorem State.setSp_ir (s : State) (b : Byte) :
    (s.setSp b).ir = s.ir := rfl
@[simp] theorem State.setSp_fault (s : State) (b : Byte) :
    (s.setSp b).fault = s.fault := rfl
@[simp] theorem State.setSp_rnd (s : State) (b : Byte) :
    (s.setSp b).rnd = s.rnd := rfl
@[simp] theorem State.setSp_draws (s : State) (b : Byte) :
    (s.setSp b).draws = s.draws := rfl

@[simp] theorem State.setDt_cfg (s : State) (b : Byte) :
    (s.setDt b).cfg = s.cfg := rfl
@[simp] theorem State.setDt_mem (s : State) (b : Byte) :
    (s.setDt b).mem = s.mem := rfl
@[simp] theorem State.setDt_V (s : State) (b : Byte) :
    (s.setDt b).V = s.V := rfl
@[simp] theorem State.setDt_fb (s : State) (b : Byte) :
    (s.setDt b).fb = s.fb := rfl
@[simp] theorem State.setDt_stack (s : State) (b : Byte) :
    (s.setDt b).stack = s.stack := rfl
@[simp] theorem State.setDt_sp (s : State) (b : Byte) :
    (s.setDt b).sp = s.sp := rfl
@[simp] theorem State.setDt_keys (s : State) (b : Byte) :
    (s.setDt b).keys = s.keys := rfl
@[simp] theorem State.setDt_pc (s : State) (b : Byte) :
    (s.setDt b).pc = s.pc := rfl
@[simp] theorem State.setDt_I (s : State) (b : Byte) :
    (s.setDt b).I = s.I := rfl
@[simp] theorem State.setDt_dt (s : State) (b : Byte) :
    (s.setDt b).dt = b := rfl
@[simp] theorem State.setDt_st (s : State) (b : Byte) :
    (s.setDt b).st = s.st := rfl
@[simp] theorem State.setDt_ir (s : State) (b : Byte) :
    (s.setDt b).ir = s.ir := rfl
@[simp] theorem State.setDt_fault (s : State) (b : Byte) :
    (s.setDt b).fault = s.fault := rfl
@[simp] theorem State.setDt_rnd (s : State) (b : Byte) :
    (s.setDt b).rnd = s.rnd := rfl
@[simp] theorem State.setDt_draws (s : State) (b : Byte) :
    (s.setDt b).draws = s.draws := rfl

@[simp] theorem State.setSt_cfg (s : State) (b : Byte) :
    (s.setSt b).cfg = s.cfg := rfl
@[simp] theorem State.setSt_mem (s : State) (b : Byte) :
    (s.setSt b).mem = s.mem := rfl
@[simp] theorem State.setSt_V (s : State) (b : Byte) :
    (s.setSt b).V = s.V := rfl
@[simp] theorem State.setSt_fb (s : State) (b : Byte) :
    (s.setSt b).fb = s.fb := rfl
@[simp] theorem State.setSt_stack (s : State) (b : Byte) :
    (s.setSt b).stack = s.stack := rfl
@[simp] theorem State.setSt_sp (s : State) (b : Byte) :
    (s.setSt b).sp = s.sp := rfl
@[simp] theorem State.setSt_keys (s : State) (b : Byte) :
    (s.setSt b).keys = s.keys := rfl
@[simp] theorem State.setSt_pc (s : State) (b : Byte) :
    (s.setSt b).pc = s.pc := rfl
@[simp] theorem State.setSt_I (s : State) (b : Byte) :
    (s.setSt b).I = s.I := rfl
@[simp] theorem State.setSt_dt (s : State) (b : Byte) :
    (s.setSt b).dt = s.dt := rfl
@[simp] theorem State.setSt_st (s : State) (b : Byte) :
    (s.setSt b).st = b := rfl
@[simp] theorem State.setSt_ir (s : State) (b : Byte) :
    (s.setSt b).ir = s.ir := rfl
@[simp] theorem State.setSt_fault (s : State) (b : Byte) :
    (s.setSt b).fault = s.fault := rfl
@[simp] theorem State.setSt_rnd (s : State) (b : Byte) :
    (s.setSt b).rnd = s.rnd := rfl
@[simp] theorem State.setSt_draws (s : State) (b : Byte) :
    (s.setSt b).draws = s.draws := rfl

@[simp] theorem State.fetched_cfg (s : State) (w : Word) :
    (s.fetched w).cfg = s.cfg := rfl
@[simp] theorem State.fetched_mem (s : State) (w : Word) :
    (s.fetched w).mem = s.mem := rfl
@[simp] theorem State.fetched_V (s : State) (w : Word) :
    (s.fetched w).V = s.V := rfl
@[simp] theorem State.fetched_fb (s : State) (w : Word) :
    (s.fetched w).fb = s.fb := rfl
@[simp] theorem State.fetched_stack (s : State) (w : Word) :
    (s.fetched w).stack = s.stack := rfl
@[simp] theorem State.fetched_sp (s : State) (w : Word) :
    (s.fetched w).sp = s.sp := rfl
@[simp] theorem State.fetched_keys (s : State) (w : Word) :
    (s.fetched w).keys = s.keys := rfl
@[simp] theorem State.fetched_pc (s : State) (w : Word) :
    (s.fetched w).pc = s.pc + 2#16 := rfl
@[simp] theorem State.fetched_I (s : State) (w : Word) :
    (s.fetched w).I = s.I := rfl
@[simp] theorem State.fetched_dt (s : State) (w : Word) :
    (s.fetched w).dt = s.dt := rfl
@[simp] theorem State.fetched_st (s : State) (w : Word) :
    (s.fetched w).st = s.st := rfl
@[simp] theorem State.fetched_ir (s : State) (w : Word) :
    (s.fetched w).ir = w := rfl
@[simp] theorem State.fetched_fault (s : State) (w : Word) :
    (s.fetched w).fault = s.fault := rfl
@[simp] theorem State.fetched_rnd (s : State) (w : Word) :
    (s.fetched w).rnd = none := rfl
@[simp] theorem State.fetched_draws (s : State) (w : Word) :
    (s.fetched w).draws = s.draws + 1 := rfl

@[simp] theorem State.takeFault_cfg (s : State) (r : Raise) :
    (s.takeFault r).cfg = s.cfg := rfl
@[simp] theorem State.takeFault_mem (s : State) (r : Raise) :
    (s.takeFault r).mem = s.mem := rfl
@[simp] theorem State.takeFault_V (s : State) (r : Raise) :
    (s.takeFault r).V = s.V := rfl
@[simp] theorem State.takeFault_fb (s : State) (r : Raise) :
    (s.takeFault r).fb = s.fb := rfl
@[simp] theorem State.takeFault_stack (s : State) (r : Raise) :
    (s.takeFault r).stack = s.stack := rfl
@[simp] theorem State.takeFault_sp (s : State) (r : Raise) :
    (s.takeFault r).sp = s.sp := rfl
@[simp] theorem State.takeFault_keys (s : State) (r : Raise) :
    (s.takeFault r).keys = s.keys := rfl
@[simp] theorem State.takeFault_pc (s : State) (r : Raise) :
    (s.takeFault r).pc = s.pc := rfl
@[simp] theorem State.takeFault_I (s : State) (r : Raise) :
    (s.takeFault r).I = s.I := rfl
@[simp] theorem State.takeFault_dt (s : State) (r : Raise) :
    (s.takeFault r).dt = s.dt := rfl
@[simp] theorem State.takeFault_st (s : State) (r : Raise) :
    (s.takeFault r).st = s.st := rfl
@[simp] theorem State.takeFault_ir (s : State) (r : Raise) :
    (s.takeFault r).ir = s.ir := rfl
@[simp] theorem State.takeFault_fault (s : State) (r : Raise) :
    (s.takeFault r).fault = some ⟨r.sub, s.pc, r.info⟩ := rfl
@[simp] theorem State.takeFault_rnd (s : State) (r : Raise) :
    (s.takeFault r).rnd = s.rnd := rfl
@[simp] theorem State.takeFault_draws (s : State) (r : Raise) :
    (s.takeFault r).draws = s.draws := rfl

@[simp] theorem State.setFlagThenReg_cfg (s : State) (x : Nibble) (f b : Byte) :
    (s.setFlagThenReg x f b).cfg = s.cfg := rfl
@[simp] theorem State.setFlagThenReg_mem (s : State) (x : Nibble) (f b : Byte) :
    (s.setFlagThenReg x f b).mem = s.mem := rfl
@[simp] theorem State.setFlagThenReg_V (s : State) (x : Nibble) (f b : Byte) :
    (s.setFlagThenReg x f b).V = (s.V.set flagReg.toNat f flagReg.isLt).set x.toNat b x.isLt := rfl
@[simp] theorem State.setFlagThenReg_fb (s : State) (x : Nibble) (f b : Byte) :
    (s.setFlagThenReg x f b).fb = s.fb := rfl
@[simp] theorem State.setFlagThenReg_stack (s : State) (x : Nibble) (f b : Byte) :
    (s.setFlagThenReg x f b).stack = s.stack := rfl
@[simp] theorem State.setFlagThenReg_sp (s : State) (x : Nibble) (f b : Byte) :
    (s.setFlagThenReg x f b).sp = s.sp := rfl
@[simp] theorem State.setFlagThenReg_keys (s : State) (x : Nibble) (f b : Byte) :
    (s.setFlagThenReg x f b).keys = s.keys := rfl
@[simp] theorem State.setFlagThenReg_pc (s : State) (x : Nibble) (f b : Byte) :
    (s.setFlagThenReg x f b).pc = s.pc := rfl
@[simp] theorem State.setFlagThenReg_I (s : State) (x : Nibble) (f b : Byte) :
    (s.setFlagThenReg x f b).I = s.I := rfl
@[simp] theorem State.setFlagThenReg_dt (s : State) (x : Nibble) (f b : Byte) :
    (s.setFlagThenReg x f b).dt = s.dt := rfl
@[simp] theorem State.setFlagThenReg_st (s : State) (x : Nibble) (f b : Byte) :
    (s.setFlagThenReg x f b).st = s.st := rfl
@[simp] theorem State.setFlagThenReg_ir (s : State) (x : Nibble) (f b : Byte) :
    (s.setFlagThenReg x f b).ir = s.ir := rfl
@[simp] theorem State.setFlagThenReg_fault (s : State) (x : Nibble) (f b : Byte) :
    (s.setFlagThenReg x f b).fault = s.fault := rfl
@[simp] theorem State.setFlagThenReg_rnd (s : State) (x : Nibble) (f b : Byte) :
    (s.setFlagThenReg x f b).rnd = s.rnd := rfl
@[simp] theorem State.setFlagThenReg_draws (s : State) (x : Nibble) (f b : Byte) :
    (s.setFlagThenReg x f b).draws = s.draws := rfl

/-- A register reads as the value last written to it. -/
@[simp] theorem State.reg_setReg_same (s : State) (x : Nibble) (b : Byte) : (s.setReg x b).reg x = b := by
  simp [State.reg]

/-- A register write leaves every other register alone. -/
theorem State.reg_setReg_ne (s : State) {x r : Nibble} (b : Byte) (h : r ≠ x) :
    (s.setReg x b).reg r = s.reg r := by
  have hne : x.toNat ≠ r.toNat := fun e => h (BitVec.eq_of_toNat_eq e.symm)
  simp [State.reg, Vector.getElem_set_ne _ _ hne]

/-- What a register reads as after a register write, either way. -/
theorem State.reg_setReg (s : State) (x r : Nibble) (b : Byte) :
    (s.setReg x b).reg r = if r = x then b else s.reg r := by
  by_cases h : r = x
  · subst h; simp
  · simp [h, s.reg_setReg_ne b h]

/-- What a register reads as after the flag and then the result are written (42_load_and_alu.md R113). -/
theorem State.reg_setFlagThenReg (s : State) (x r : Nibble) (f b : Byte) :
    (s.setFlagThenReg x f b).reg r = if r = x then b else if r = flagReg then f else s.reg r := by
  simp [State.setFlagThenReg, State.reg_setReg]

/-- The registers of a state determine its register file. -/
theorem State.V_eq_of_reg {s t : State} (h : ∀ r, t.reg r = s.reg r) : t.V = s.V := by
  apply Vector.ext
  intro k hk
  have := h (BitVec.ofNat 4 k)
  simpa [State.reg, Nat.mod_eq_of_lt hk] using this

@[simp] theorem State.reg_setPc (s : State) (a : Word) (r : Nibble) : (s.setPc a).reg r = s.reg r := rfl
@[simp] theorem State.reg_setI (s : State) (a : Word) (r : Nibble) : (s.setI a).reg r = s.reg r := rfl
@[simp] theorem State.reg_setSp (s : State) (b : Byte) (r : Nibble) : (s.setSp b).reg r = s.reg r := rfl
@[simp] theorem State.reg_setDt (s : State) (b : Byte) (r : Nibble) : (s.setDt b).reg r = s.reg r := rfl
@[simp] theorem State.reg_setSt (s : State) (b : Byte) (r : Nibble) : (s.setSt b).reg r = s.reg r := rfl
@[simp] theorem State.reg_fetched (s : State) (w : Word) (r : Nibble) : (s.fetched w).reg r = s.reg r := rfl
@[simp] theorem State.reg_takeFault (s : State) (e : Raise) (r : Nibble) : (s.takeFault e).reg r = s.reg r := rfl

@[simp] theorem State.byte_setReg (s : State) (x : Nibble) (b : Byte) (a : Nat) : (s.setReg x b).byte a = s.byte a := rfl
@[simp] theorem State.pixel_setReg (s : State) (x : Nibble) (b : Byte) (i : Nat) : (s.setReg x b).pixel i = s.pixel i := rfl
@[simp] theorem State.ea_setReg (s : State) (x : Nibble) (b : Byte) (k : Nat) : (s.setReg x b).ea k = s.ea k := rfl
@[simp] theorem State.byte_setPc (s : State) (a' : Word) (a : Nat) : (s.setPc a').byte a = s.byte a := rfl
@[simp] theorem State.pixel_setPc (s : State) (a : Word) (i : Nat) : (s.setPc a).pixel i = s.pixel i := rfl
@[simp] theorem State.ea_setPc (s : State) (a : Word) (k : Nat) : (s.setPc a).ea k = s.ea k := rfl
@[simp] theorem State.byte_setI (s : State) (a' : Word) (a : Nat) : (s.setI a').byte a = s.byte a := rfl
@[simp] theorem State.pixel_setI (s : State) (a : Word) (i : Nat) : (s.setI a).pixel i = s.pixel i := rfl
@[simp] theorem State.byte_setSp (s : State) (b : Byte) (a : Nat) : (s.setSp b).byte a = s.byte a := rfl
@[simp] theorem State.pixel_setSp (s : State) (b : Byte) (i : Nat) : (s.setSp b).pixel i = s.pixel i := rfl
@[simp] theorem State.ea_setSp (s : State) (b : Byte) (k : Nat) : (s.setSp b).ea k = s.ea k := rfl
@[simp] theorem State.byte_setDt (s : State) (b : Byte) (a : Nat) : (s.setDt b).byte a = s.byte a := rfl
@[simp] theorem State.pixel_setDt (s : State) (b : Byte) (i : Nat) : (s.setDt b).pixel i = s.pixel i := rfl
@[simp] theorem State.ea_setDt (s : State) (b : Byte) (k : Nat) : (s.setDt b).ea k = s.ea k := rfl
@[simp] theorem State.byte_setSt (s : State) (b : Byte) (a : Nat) : (s.setSt b).byte a = s.byte a := rfl
@[simp] theorem State.pixel_setSt (s : State) (b : Byte) (i : Nat) : (s.setSt b).pixel i = s.pixel i := rfl
@[simp] theorem State.ea_setSt (s : State) (b : Byte) (k : Nat) : (s.setSt b).ea k = s.ea k := rfl
@[simp] theorem State.byte_fetched (s : State) (w : Word) (a : Nat) : (s.fetched w).byte a = s.byte a := rfl
@[simp] theorem State.pixel_fetched (s : State) (w : Word) (i : Nat) : (s.fetched w).pixel i = s.pixel i := rfl
@[simp] theorem State.ea_fetched (s : State) (w : Word) (k : Nat) : (s.fetched w).ea k = s.ea k := rfl
@[simp] theorem State.byte_takeFault (s : State) (r : Raise) (a : Nat) : (s.takeFault r).byte a = s.byte a := rfl
@[simp] theorem State.pixel_takeFault (s : State) (r : Raise) (i : Nat) : (s.takeFault r).pixel i = s.pixel i := rfl
@[simp] theorem State.ea_takeFault (s : State) (r : Raise) (k : Nat) : (s.takeFault r).ea k = s.ea k := rfl
@[simp] theorem State.byte_setFlagThenReg (s : State) (x : Nibble) (f b : Byte) (a : Nat) : (s.setFlagThenReg x f b).byte a = s.byte a := rfl
@[simp] theorem State.pixel_setFlagThenReg (s : State) (x : Nibble) (f b : Byte) (i : Nat) : (s.setFlagThenReg x f b).pixel i = s.pixel i := rfl
@[simp] theorem State.ea_setFlagThenReg (s : State) (x : Nibble) (f b : Byte) (k : Nat) : (s.setFlagThenReg x f b).ea k = s.ea k := rfl

/-- A skip changes `pc` alone (40_step_cycle.md R83). -/
theorem State.skipIf_eq (s : State) (c : Bool) :
    s.skipIf c = { s with pc := if c then s.pc + 2#16 else s.pc } := by
  cases c <;> rfl

end Sys2Proof.Machine
end

