-- ==== Sys2Proof/Laws/Storage.lean ====
section
/-! SUPPORT. Canonical sparse storage: what a read after a write gives, that every operation of memory and of the
framebuffer keeps the canonical form, and that equal contents are equal lists. -/

namespace Sys2Proof.Machine

variable {α : Type}

theorem Sparse.not_mem_erase (a : Nat) (m : List (Nat × α)) : ∀ c ∈ Sparse.erase a m, c.1 ≠ a := by
  induction m with
  | nil => simp [Sparse.erase]
  | cons c m ih =>
    by_cases h : c.1 = a
    · simpa [Sparse.erase, h] using ih
    · simpa [Sparse.erase, h] using ih

theorem Sparse.mem_of_mem_erase {a : Nat} {m : List (Nat × α)} {c : Nat × α}
    (h : c ∈ Sparse.erase a m) : c ∈ m := by
  induction m with
  | nil => simp [Sparse.erase] at h
  | cons e m ih =>
    by_cases he : e.1 = a
    · simp only [Sparse.erase, he, if_true] at h; exact List.mem_cons_of_mem _ (ih h)
    · simp only [Sparse.erase, he, if_false, List.mem_cons] at h
      rcases h with rfl | h
      · exact List.mem_cons_self
      · exact List.mem_cons_of_mem _ (ih h)

theorem Sparse.mem_insert {a : Nat} {v : α} {m : List (Nat × α)} {c : Nat × α}
    (h : c ∈ Sparse.insert a v m) : c = (a, v) ∨ c ∈ m := by
  induction m with
  | nil => simpa [Sparse.insert] using h
  | cons e m ih =>
    unfold Sparse.insert at h
    split at h
    · simpa using h
    · rcases List.mem_cons.1 h with rfl | h
      · exact .inr List.mem_cons_self
      · rcases ih h with h | h
        · exact .inl h
        · exact .inr (List.mem_cons_of_mem _ h)

/-- A key that no entry has reads as the default. -/
theorem Sparse.read_of_not_mem (d : α) {m : List (Nat × α)} {a : Nat} (h : ∀ c ∈ m, c.1 ≠ a) :
    Sparse.read d m a = d := by
  induction m with
  | nil => rfl
  | cons c m ih =>
    have hc : c.1 ≠ a := h c List.mem_cons_self
    simp only [Sparse.read, hc, if_false]
    exact ih fun e he => h e (List.mem_cons_of_mem _ he)

theorem Sparse.read_erase (d : α) (m : List (Nat × α)) (a b : Nat) :
    Sparse.read d (Sparse.erase a m) b = if b = a then d else Sparse.read d m b := by
  by_cases hb : b = a
  · subst hb
    simpa using Sparse.read_of_not_mem d (Sparse.not_mem_erase b m)
  · simp only [hb, if_false]
    induction m with
    | nil => rfl
    | cons c m ih =>
      by_cases hc : c.1 = a
      · rw [Sparse.erase, if_pos hc, ih, Sparse.read, if_neg (by omega)]
      · rw [Sparse.erase, if_neg hc, Sparse.read, Sparse.read, ih]

theorem Sparse.read_insert (d : α) {m : List (Nat × α)} {a : Nat} (v : α) (b : Nat)
    (h : ∀ c ∈ m, c.1 ≠ a) :
    Sparse.read d (Sparse.insert a v m) b = if b = a then v else Sparse.read d m b := by
  induction m with
  | nil =>
    by_cases hb : b = a
    · simp [Sparse.insert, Sparse.read, hb]
    · simp [Sparse.insert, Sparse.read, hb, Ne.symm hb]
  | cons c m ih =>
    have hc : c.1 ≠ a := h c List.mem_cons_self
    have ih := ih fun e he => h e (List.mem_cons_of_mem _ he)
    unfold Sparse.insert
    split
    · by_cases hb : b = a
      · simp [Sparse.read, hb]
      · simp [Sparse.read, hb, Ne.symm hb]
    · by_cases hcb : c.1 = b
      · have : b ≠ a := fun e => hc (hcb.trans e)
        simp [Sparse.read, hcb, this]
      · simp [Sparse.read, hcb, ih]

variable [DecidableEq α]

/-- What a key reads as after a write: the value written, and every other key as before. -/
theorem Sparse.read_write (d : α) (m : List (Nat × α)) (a : Nat) (v : α) (b : Nat) :
    Sparse.read d (Sparse.write d m a v) b = if b = a then v else Sparse.read d m b := by
  unfold Sparse.write
  split
  · next hv => simp [Sparse.read_erase, hv]
  · rw [Sparse.read_insert d v b (Sparse.not_mem_erase a m), Sparse.read_erase]
    by_cases hb : b = a <;> simp [hb]

/-- The canonical form, entry by entry. -/
theorem Sparse.wf_cons (d : α) (n : Nat) (c : Nat × α) (m : List (Nat × α)) :
    Sparse.wf d n (c :: m) = true ↔
      c.1 < n ∧ c.2 ≠ d ∧ (∀ e ∈ m, c.1 < e.1) ∧ Sparse.wf d n m = true := by
  simp [Sparse.wf, and_assoc]

theorem Sparse.wf_mem {d : α} {n : Nat} {m : List (Nat × α)} (h : Sparse.wf d n m = true) :
    ∀ c ∈ m, c.1 < n ∧ c.2 ≠ d := by
  induction m with
  | nil => simp
  | cons c m ih =>
    obtain ⟨h1, h2, _, h4⟩ := (Sparse.wf_cons d n c m).1 h
    intro e he
    rcases List.mem_cons.1 he with rfl | he
    · exact ⟨h1, h2⟩
    · exact ih h4 e he

theorem Sparse.wf_erase {d : α} {n : Nat} {m : List (Nat × α)} (a : Nat) (h : Sparse.wf d n m = true) :
    Sparse.wf d n (Sparse.erase a m) = true := by
  induction m with
  | nil => rfl
  | cons c m ih =>
    obtain ⟨h1, h2, h3, h4⟩ := (Sparse.wf_cons d n c m).1 h
    unfold Sparse.erase
    split
    · exact ih h4
    · exact (Sparse.wf_cons d n c _).2 ⟨h1, h2, fun e he => h3 e (Sparse.mem_of_mem_erase he), ih h4⟩

theorem Sparse.wf_insert {d : α} {n a : Nat} {v : α} {m : List (Nat × α)} (ha : a < n) (hv : v ≠ d)
    (hm : ∀ c ∈ m, c.1 ≠ a) (h : Sparse.wf d n m = true) : Sparse.wf d n (Sparse.insert a v m) = true := by
  induction m with
  | nil => simp [Sparse.insert, Sparse.wf, ha, hv]
  | cons c m ih =>
    obtain ⟨h1, h2, h3, h4⟩ := (Sparse.wf_cons d n c m).1 h
    have hc : c.1 ≠ a := hm c List.mem_cons_self
    unfold Sparse.insert
    split
    · next hlt =>
      refine (Sparse.wf_cons d n _ _).2 ⟨ha, hv, ?_, h⟩
      intro e he
      rcases List.mem_cons.1 he with rfl | he
      · exact hlt
      · exact lt_trans hlt (h3 e he)
    · next hlt =>
      refine (Sparse.wf_cons d n _ _).2 ⟨h1, h2, ?_, ih (fun e he => hm e (List.mem_cons_of_mem _ he)) h4⟩
      intro e he
      rcases Sparse.mem_insert he with rfl | he
      · show c.1 < a; omega
      · exact h3 e he

/-- A write below the bound keeps the canonical form. -/
theorem Sparse.wf_write {d : α} {n a : Nat} {m : List (Nat × α)} (v : α) (ha : a < n)
    (h : Sparse.wf d n m = true) : Sparse.wf d n (Sparse.write d m a v) = true := by
  unfold Sparse.write
  split
  · exact Sparse.wf_erase a h
  · next hv => exact Sparse.wf_insert ha hv (Sparse.not_mem_erase a m) (Sparse.wf_erase a h)

/-- Two canonical lists with the same contents are the same list. -/
theorem Sparse.eq_of_read {d : α} {n : Nat} {m m' : List (Nat × α)} (h : Sparse.wf d n m = true)
    (h' : Sparse.wf d n m' = true) (hr : ∀ a, Sparse.read d m a = Sparse.read d m' a) : m = m' := by
  induction m generalizing m' with
  | nil =>
    cases m' with
    | nil => rfl
    | cons c m' =>
      have hc := ((Sparse.wf_cons d n c m').1 h').2.1
      exact absurd (by simpa [Sparse.read] using (hr c.1).symm) hc
  | cons c m ih =>
    obtain ⟨_, h2, h3, h4⟩ := (Sparse.wf_cons d n c m).1 h
    cases m' with
    | nil => exact absurd (by simpa [Sparse.read] using hr c.1) h2
    | cons c' m' =>
      obtain ⟨_, h2', h3', h4'⟩ := (Sparse.wf_cons d n c' m').1 h'
      have hkey : c.1 = c'.1 := by
        rcases Nat.lt_trichotomy c.1 c'.1 with hlt | heq | hgt
        · have := hr c.1
          rw [Sparse.read_of_not_mem d (m := c' :: m') (fun e he => by
            rcases List.mem_cons.1 he with rfl | he
            · omega
            · have := h3' e he; omega)] at this
          exact absurd (by simpa [Sparse.read] using this) h2
        · exact heq
        · have := hr c'.1
          rw [Sparse.read_of_not_mem d (m := c :: m) (fun e he => by
            rcases List.mem_cons.1 he with rfl | he
            · omega
            · have := h3 e he; omega)] at this
          exact absurd (by simpa [Sparse.read] using this.symm) h2'
      have hval : c.2 = c'.2 := by simpa [Sparse.read, hkey] using hr c'.1
      have htail : m = m' := by
        refine ih h4 h4' fun a => ?_
        by_cases ha : c'.1 = a
        · rw [Sparse.read_of_not_mem d (fun e he => by have := h3 e he; omega),
            Sparse.read_of_not_mem d (fun e he => by have := h3' e he; omega)]
        · simpa [Sparse.read, hkey, ha] using hr a
      rw [Prod.ext hkey hval, htail]

/-! ### Memory -/

/-- Read after write, for memory. -/
theorem Memory.read_write (m : Memory) (a : Nat) (v : Byte) (b : Nat) :
    (m.write a v).read b = if b = a then v else m.read b := Sparse.read_write _ _ _ _ _

@[simp] theorem Memory.read_write_same (m : Memory) (a : Nat) (v : Byte) : (m.write a v).read a = v := by
  simp [Memory.read_write]

theorem Memory.read_write_ne (m : Memory) {a b : Nat} (v : Byte) (h : b ≠ a) :
    (m.write a v).read b = m.read b := by
  simp [Memory.read_write, h]

/-- A write inside 0..4095 keeps memory canonical. -/
theorem Memory.wf_write {m : Memory} {a : Nat} (v : Byte) (ha : a ≤ 4095) (h : m.wf = true) :
    (m.write a v).wf = true := Sparse.wf_write v (by omega) h

/-- What memory reads as after a block is written at ascending addresses. -/
theorem Memory.read_writeBlock (m : Memory) (a : Nat) (bs : List Byte) (b : Nat) :
    (m.writeBlock a bs).read b = if a ≤ b ∧ b < a + bs.length then bs.getD (b - a) 0#8 else m.read b := by
  induction bs generalizing m a with
  | nil =>
    have : ¬(a ≤ b ∧ b < a) := by omega
    simp [Memory.writeBlock, this]
  | cons v bs ih =>
    rw [Memory.writeBlock, ih, Memory.read_write, List.length_cons]
    by_cases h1 : a + 1 ≤ b ∧ b < a + 1 + bs.length
    · have h2 : a ≤ b ∧ b < a + (bs.length + 1) := by omega
      rw [if_pos h1, if_pos h2]
      obtain ⟨k, rfl⟩ : ∃ k, b = a + (k + 1) := ⟨b - a - 1, by omega⟩
      rw [show a + (k + 1) - (a + 1) = k by omega, show a + (k + 1) - a = k + 1 by omega]
      simp
    · rw [if_neg h1]
      by_cases hb : b = a
      · subst hb
        have h2 : b ≤ b ∧ b < b + (bs.length + 1) := by omega
        rw [if_pos rfl, if_pos h2]; simp
      · have h2 : ¬(a ≤ b ∧ b < a + (bs.length + 1)) := by omega
        rw [if_neg hb, if_neg h2]

/-- A block inside 0..4095 keeps memory canonical. -/
theorem Memory.wf_writeBlock {m : Memory} (a : Nat) (bs : List Byte) (ha : a + bs.length ≤ 4096)
    (h : m.wf = true) : (m.writeBlock a bs).wf = true := by
  induction bs generalizing m a with
  | nil => exact h
  | cons v bs ih =>
    simp only [List.length_cons] at ha
    exact ih (a + 1) (by omega) (Memory.wf_write v (by omega) h)

/-- Equal memories are equal data. -/
theorem Memory.eq_of_read {m m' : Memory} (h : m.wf = true) (h' : m'.wf = true)
    (hr : ∀ a, m.read a = m'.read a) : m = m' := Sparse.eq_of_read h h' hr

/-- Reset memory is canonical. -/
theorem Memory.wf_reset (c : Config) : (State.resetWith c).mem.wf = true := rfl

/-! ### The framebuffer -/

/-- Read after write, for the framebuffer. -/
theorem Framebuffer.read_write (f : Framebuffer) (i : Nat) (p : Pixel) (j : Nat) :
    (f.write i p).read j = if j = i then p else f.read j := Sparse.read_write _ _ _ _ _

/-- A write inside 0..2047 keeps the framebuffer canonical. -/
theorem Framebuffer.wf_write {f : Framebuffer} {i : Nat} (p : Pixel) (hi : i ≤ 2047) (h : f.wf = true) :
    (f.write i p).wf = true := Sparse.wf_write p (by omega) h

/-- Equal framebuffers are equal data. -/
theorem Framebuffer.eq_of_read {f f' : Framebuffer} (h : f.wf = true) (h' : f'.wf = true)
    (hr : ∀ i, f.read i = f'.read i) : f = f' := Sparse.eq_of_read h h' hr

/-- A dark framebuffer reads dark everywhere. -/
@[simp] theorem Framebuffer.read_nil (i : Nat) : Framebuffer.read [] i = pixelOff := rfl

end Sys2Proof.Machine
end

