-- ==== Sys2Proof/Laws/Ops.lean ====
section
/-! SUPPORT. One lemma per shared operation: everything it can answer (00_scope.md R15, 40_step_cycle.md R80). -/

namespace Sys2Proof.Machine

/-! ### The access primitives -/

theorem memReadAs_ok_iff {c : Cause} {s : State} {a : Nat} {b : Byte} :
    memReadAs c s a = .ok b ↔ a ≤ 4095 ∧ b = s.byte a := by
  unfold memReadAs; split <;> simp_all [eq_comm]

theorem memReadAs_error_iff {c : Cause} {s : State} {a : Nat} {r : Raise} :
    memReadAs c s a = .error r ↔ 4095 < a ∧ r = ⟨c, a⟩ := by
  unfold memReadAs; split <;> simp_all [eq_comm]

theorem memRead_ok_iff {s : State} {a : Nat} {b : Byte} :
    memRead s a = .ok b ↔ a ≤ 4095 ∧ b = s.byte a := memReadAs_ok_iff

theorem memRead_error_iff {s : State} {a : Nat} {r : Raise} :
    memRead s a = .error r ↔ 4095 < a ∧ r = ⟨.memRead, a⟩ := memReadAs_error_iff

theorem memWrite_ok_iff {s t : State} {a : Nat} {v : Byte} :
    memWrite s a v = .ok t ↔ a ≤ 4095 ∧ t = { s with mem := s.mem.write a v } := by
  unfold memWrite; split <;> simp_all [eq_comm]

theorem memWrite_error_iff {s : State} {a : Nat} {v : Byte} {r : Raise} :
    memWrite s a v = .error r ↔ 4095 < a ∧ r = ⟨.memWrite, a⟩ := by
  unfold memWrite; split <;> simp_all [eq_comm]

theorem fbRead_ok_iff {s : State} {i : Nat} {p : Pixel} :
    fbRead s i = .ok p ↔ i ≤ 2047 ∧ p = s.pixel i := by
  unfold fbRead; split <;> simp_all [eq_comm]

theorem fbRead_error_iff {s : State} {i : Nat} {r : Raise} :
    fbRead s i = .error r ↔ 2047 < i ∧ r = ⟨.fb, i⟩ := by
  unfold fbRead; split <;> simp_all [eq_comm]

theorem fbWrite_ok_iff {s t : State} {i : Nat} {p : Pixel} :
    fbWrite s i p = .ok t ↔ i ≤ 2047 ∧ t = { s with fb := s.fb.write i p } := by
  unfold fbWrite; split <;> simp_all [eq_comm]

theorem fbWrite_error_iff {s : State} {i : Nat} {p : Pixel} {r : Raise} :
    fbWrite s i p = .error r ↔ 2047 < i ∧ r = ⟨.fb, i⟩ := by
  unfold fbWrite; split <;> simp_all [eq_comm]

theorem keyRead_ok_iff {s : State} {k : Nat} {b : Bool} :
    keyRead s k = .ok b ↔ ∃ h : k < 16, b = s.keys[k]'h := by
  unfold keyRead; split <;> simp_all [eq_comm]

theorem keyRead_error_iff {s : State} {k : Nat} {r : Raise} :
    keyRead s k = .error r ↔ 15 < k ∧ r = ⟨.key, k⟩ := by
  unfold keyRead; split
  · next h => simp only [reduceCtorEq, false_iff]; omega
  · next h =>
    have : 15 < k := by omega
    simp [this, eq_comm]

theorem stackRead_ok_iff {s : State} {i : Nat} {v : Word} :
    stackRead s i = .ok v ↔ ∃ h : i < 16, v = s.stack[i]'h := by
  unfold stackRead; split <;> simp_all [eq_comm]

theorem stackRead_error_iff {s : State} {i : Nat} {r : Raise} :
    stackRead s i = .error r ↔ 15 < i ∧ r = ⟨.stackUnderflow, i⟩ := by
  unfold stackRead; split
  · next h => simp only [reduceCtorEq, false_iff]; omega
  · next h =>
    have : 15 < i := by omega
    simp [this, eq_comm]

theorem stackWrite_ok_iff {s t : State} {i : Nat} {v : Word} :
    stackWrite s i v = .ok t ↔ ∃ h : i < 16, t = { s with stack := s.stack.set i v h } := by
  unfold stackWrite; split <;> simp_all [eq_comm]

theorem stackWrite_error_iff {s : State} {i : Nat} {v : Word} {r : Raise} :
    stackWrite s i v = .error r ↔ 15 < i ∧ r = ⟨.stackOverflow, i⟩ := by
  unfold stackWrite; split
  · next h => simp only [reduceCtorEq, false_iff]; omega
  · next h =>
    have : 15 < i := by omega
    simp [this, eq_comm]

/-! ### The bounded loop -/

@[simp] theorem forUpTo_zero (body : Nat → State → Except Raise State) (s : State) :
    forUpTo 0 body s = .ok s := rfl

theorem forUpTo_succ_ok_iff {n : Nat} {body : Nat → State → Except Raise State} {s t : State} :
    forUpTo (n + 1) body s = .ok t ↔ ∃ u, forUpTo n body s = .ok u ∧ body n u = .ok t := by
  rw [forUpTo]; split <;> simp_all

theorem forUpTo_succ_error_iff {n : Nat} {body : Nat → State → Except Raise State} {s : State} {r : Raise} :
    forUpTo (n + 1) body s = .error r ↔
      forUpTo n body s = .error r ∨ ∃ u, forUpTo n body s = .ok u ∧ body n u = .error r := by
  rw [forUpTo]; split <;> simp_all

/-- A property that holds before the loop and that round `k` carries from `k` to `k + 1` holds after it. -/
theorem forUpTo_ok_invariant {n : Nat} {body : Nat → State → Except Raise State} {s t : State}
    (P : Nat → State → Prop) (h0 : P 0 s)
    (hk : ∀ k u v, k < n → P k u → body k u = .ok v → P (k + 1) v)
    (h : forUpTo n body s = .ok t) : P n t := by
  induction n generalizing t with
  | zero => cases h; exact h0
  | succ n ih =>
    obtain ⟨u, hu, hb⟩ := forUpTo_succ_ok_iff.1 h
    exact hk n u t (Nat.lt_succ_self n) (ih (fun k u v hkn => hk k u v (by omega)) hu) hb

/-- A loop raises what one of its rounds raises, in a state the rounds before it reached. -/
theorem forUpTo_error_invariant {n : Nat} {body : Nat → State → Except Raise State} {s : State} {r : Raise}
    (P : Nat → State → Prop) (h0 : P 0 s)
    (hk : ∀ k u v, k < n → P k u → body k u = .ok v → P (k + 1) v)
    (h : forUpTo n body s = .error r) : ∃ k u, k < n ∧ P k u ∧ body k u = .error r := by
  induction n with
  | zero => cases h
  | succ n ih =>
    rcases forUpTo_succ_error_iff.1 h with h | ⟨u, hu, hb⟩
    · obtain ⟨k, u, hkn, hP, hb⟩ := ih (fun k u v hkn => hk k u v (by omega)) h
      exact ⟨k, u, by omega, hP, hb⟩
    · exact ⟨n, u, Nat.lt_succ_self n,
        forUpTo_ok_invariant P h0 (fun k u v hkn => hk k u v (by omega)) hu, hb⟩

/-- A loop every round of which completes, from a state with the property, completes. -/
theorem forUpTo_completes {n : Nat} {body : Nat → State → Except Raise State} {s : State}
    (P : Nat → State → Prop) (h0 : P 0 s)
    (hk : ∀ k u, k < n → P k u → ∃ v, body k u = .ok v ∧ P (k + 1) v) :
    ∃ t, forUpTo n body s = .ok t ∧ P n t := by
  induction n with
  | zero => exact ⟨s, rfl, h0⟩
  | succ n ih =>
    obtain ⟨u, hu, hP⟩ := ih fun k u hkn => hk k u (by omega)
    obtain ⟨v, hv, hQ⟩ := hk n u (Nat.lt_succ_self n) hP
    exact ⟨v, forUpTo_succ_ok_iff.2 ⟨u, hu, hv⟩, hQ⟩

/-! ### Words and bytes (20_memory.md R43) -/

@[simp] theorem wordOfBytes_high_low (w : Word) : wordOfBytes (highByte w) (lowByte w) = w := by
  unfold wordOfBytes highByte lowByte
  exact BitVec.extractLsb'_append_extractLsb'_eq_extractLsb' (by omega) |>.trans (by simp)

/-! ### The frame of a step -/

/-- The fetch, when it can be made: two bytes, the one at the lower address high (R43, R81). -/
theorem fetch_ok_iff {s : State} {w : Word} :
    fetch s = .ok w ↔ s.pc.toNat ≤ 4094 ∧
      w = wordOfBytes (s.byte s.pc.toNat) (s.byte (s.pc.toNat + 1)) := by
  unfold fetch memReadAs
  by_cases h0 : s.pc.toNat ≤ 4095
  · by_cases h1 : s.pc.toNat + 1 ≤ 4095
    · have h2 : s.pc.toNat ≤ 4094 := by omega
      simp [h0, h1, h2, eq_comm]
    · have h2 : ¬s.pc.toNat ≤ 4094 := by omega
      simp [h0, h1, h2]
  · have h2 : ¬s.pc.toNat ≤ 4094 := by omega
    simp [h0, h2]

/-- The fetch, when it cannot: the first address out of range (R81). -/
theorem fetch_error_iff {s : State} {r : Raise} :
    fetch s = .error r ↔ 4094 < s.pc.toNat ∧
      r = ⟨.fetch, if s.pc.toNat = 4095 then 4096 else s.pc.toNat⟩ := by
  unfold fetch memReadAs
  by_cases h0 : s.pc.toNat ≤ 4095
  · by_cases h1 : s.pc.toNat + 1 ≤ 4095
    · have h2 : ¬4094 < s.pc.toNat := by omega
      simp [h0, h1, h2]
    · have h2 : s.pc.toNat = 4095 := by omega
      simp [h2, eq_comm]
  · have h2 : 4094 < s.pc.toNat := by omega
    have h3 : s.pc.toNat ≠ 4095 := by omega
    simp [h0, h2, h3, eq_comm]

/-- The two ends of a step of an instruction: its pseudocode completes, or it raises and the fault is taken on
the state before (R80, R182). -/
theorem complete_next_iff {i : Instr} {body : State → Except Raise State} {s t : State} :
    complete i body s = .next t ↔
      body (s.fetched (encode i)) = .ok t ∨
        ∃ r, body (s.fetched (encode i)) = .error r ∧ t = s.takeFault r := by
  rcases h : body (s.fetched (encode i)) with r | u <;> simp [complete, h, eq_comm]

theorem complete_of_ok {i : Instr} {body : State → Except Raise State} {s t : State}
    (h : body (s.fetched (encode i)) = .ok t) : complete i body s = .next t := by
  simp [complete, h]

theorem complete_of_error {i : Instr} {body : State → Except Raise State} {s : State} {r : Raise}
    (h : body (s.fetched (encode i)) = .error r) : complete i body s = .next (s.takeFault r) := by
  simp [complete, h]

/-- What a step can be (R80, R81, R88). -/
theorem step_cases (s : State) :
    (s.fault ≠ none ∧ step s = .next s) ∨
    (s.fault = none ∧ ∃ r, fetch s = .error r ∧ step s = .next (s.takeFault r)) ∨
    (s.fault = none ∧ ∃ w, fetch s = .ok w ∧ step s = exec (decodeWord w) s) := by
  rcases hf : s.fault with _ | f
  · rcases hw : fetch s with r | w
    · exact .inr (.inl ⟨rfl, r, rfl, by simp [step, hf, hw]⟩)
    · exact .inr (.inr ⟨rfl, w, rfl, by simp [step, hf, hw]⟩)
  · exact .inl ⟨by simp, by simp [step, hf]⟩

/-- The word placed by `placeWord` is the word fetched. -/
theorem fetch_placeWord (s : State) (w : Word) : fetch (s.placeWord w) = .ok w := by
  rw [fetch_ok_iff]
  have key : ∀ p : Word, p.toNat ≤ 4094 →
      w = wordOfBytes ((s.mem.writeBlock p.toNat [highByte w, lowByte w]).read p.toNat)
        ((s.mem.writeBlock p.toNat [highByte w, lowByte w]).read (p.toNat + 1)) := by
    intro p _
    rw [Memory.read_writeBlock, Memory.read_writeBlock]
    simp
  unfold State.placeWord State.byte
  by_cases h : s.pc.toNat ≤ 4094
  · simpa [h] using key s.pc h
  · simpa [h] using key 0x200#16 (by decide)

end Sys2Proof.Machine
end

