-- ==== Sys2Proof/Laws/Loops.lean ====
section
/-! SUPPORT. What the loops of the memory and display instructions do: the store loop (43_index_and_memory.md
R133 to R136), the load loop (R135), one toggled cell and the rows of a draw (44_display.md R152). -/

namespace Sys2Proof.Machine

/-! ### Stores -/

/-- A store loop that stays in memory completes; it changes memory alone, at exactly its `n` addresses. -/
theorem storeLoop_ok {n : Nat} {b : Nat → State → Byte} {t : State}
    (hb : ∀ k m, b k { t with mem := m } = b k t) (hr : t.I.toNat + n ≤ 4096) :
    ∃ u, storeLoop n b t = .ok u ∧ u = { t with mem := u.mem } ∧
      ∀ c, u.byte c = if t.I.toNat ≤ c ∧ c < t.I.toNat + n then b (c - t.I.toNat) t else t.byte c := by
  refine forUpTo_completes (fun j u => u = { t with mem := u.mem } ∧ ∀ c, u.byte c =
    if t.I.toNat ≤ c ∧ c < t.I.toNat + j then b (c - t.I.toNat) t else t.byte c) ⟨rfl, ?_⟩ ?_
  · intro c
    have : ¬(t.I.toNat ≤ c ∧ c < t.I.toNat + 0) := by omega
    rw [if_neg this]
  · rintro k u hk ⟨hu, hc⟩
    have hI : u.I = t.I := by rw [hu]
    have hbu : b k u = b k t := by rw [hu]; exact hb k u.mem
    have hea : u.ea k = t.I.toNat + k := by simp [State.ea, hI]
    refine ⟨{ u with mem := u.mem.write (u.ea k) (b k u) }, memWrite_ok_iff.2 ⟨by omega, rfl⟩, ?_, ?_⟩
    · rw [hu]
    · intro c
      show (u.mem.write (u.ea k) (b k u)).read c = _
      rw [Memory.read_write, hea, hbu]
      by_cases h1 : c = t.I.toNat + k
      · subst h1
        have : t.I.toNat ≤ t.I.toNat + k ∧ t.I.toNat + k < t.I.toNat + (k + 1) := by omega
        simp [this]
      · have h2 : (t.I.toNat ≤ c ∧ c < t.I.toNat + (k + 1)) ↔ (t.I.toNat ≤ c ∧ c < t.I.toNat + k) := by omega
        rw [if_neg h1]
        simp only [h2]
        exact hc c

/-- A store loop that leaves memory raises the first address above 4095. -/
theorem storeLoop_error {n : Nat} {b : Nat → State → Byte} {t : State}
    (hb : ∀ k m, b k { t with mem := m } = b k t) (hn : 0 < n) (hr : t.I.toNat + n > 4096) :
    storeLoop n b t = .error ⟨.memWrite, if t.I.toNat ≤ 4095 then 4096 else t.I.toNat⟩ := by
  induction n with
  | zero => omega
  | succ n ih =>
    by_cases h : t.I.toNat + n > 4096
    · rcases Nat.eq_zero_or_pos n with rfl | hn'
      · have h1 : ¬t.I.toNat ≤ 4095 := by omega
        refine forUpTo_succ_error_iff.2 (.inr ⟨t, rfl, memWrite_error_iff.2 ?_⟩)
        simp [State.ea, h1]; omega
      · exact forUpTo_succ_error_iff.2 (.inl (ih hn' h))
    · obtain ⟨u, hu, hf, _⟩ := storeLoop_ok (n := n) hb (by omega)
      refine forUpTo_succ_error_iff.2 (.inr ⟨u, hu, memWrite_error_iff.2 ?_⟩)
      have hI : u.I = t.I := by rw [hf]
      by_cases h1 : t.I.toNat ≤ 4095
      · simp [State.ea, hI, h1]; omega
      · simp [State.ea, hI, h1]; omega

/-- Whatever it stores, a store loop changes memory alone, and keeps it canonical. -/
theorem storeLoop_frame {n : Nat} {b : Nat → State → Byte} {t u : State} (h : storeLoop n b t = .ok u) :
    u = { t with mem := u.mem } ∧ (t.mem.wf = true → u.mem.wf = true) := by
  refine forUpTo_ok_invariant (fun _ u => u = { t with mem := u.mem } ∧ (t.mem.wf = true → u.mem.wf = true))
    ⟨rfl, id⟩ ?_ h
  rintro k u v _ ⟨hu, hw⟩ hb
  obtain ⟨ha, rfl⟩ := memWrite_ok_iff.1 hb
  exact ⟨by rw [hu], fun hm => Memory.wf_write _ ha (hw hm)⟩

/-- A store loop raises nothing but `MEM_WRITE`. -/
theorem storeLoop_raises {n : Nat} {b : Nat → State → Byte} {t : State} {r : Raise}
    (h : storeLoop n b t = .error r) : r.sub = .memWrite := by
  obtain ⟨k, u, _, _, hb⟩ := forUpTo_error_invariant (fun _ _ => True) trivial (fun _ _ _ _ _ _ => trivial) h
  rw [(memWrite_error_iff.1 hb).2]

/-! ### Loads -/

theorem runningReg_toNat {k : Nat} (h : k < 16) : (runningReg k).toNat = k := by
  simp [runningReg, Nat.mod_eq_of_lt h]

/-- A load loop that stays in memory completes; it changes registers `0 .. n - 1` alone. -/
theorem loadLoop_ok {n : Nat} {t : State} (hn : n ≤ 16) (hr : t.I.toNat + n ≤ 4096) :
    ∃ u, loadLoop n t = .ok u ∧ u = { t with V := u.V } ∧
      ∀ r : Nibble, u.reg r = if r.toNat < n then t.byte (t.ea r.toNat) else t.reg r := by
  refine forUpTo_completes (fun j u => u = { t with V := u.V } ∧
    ∀ r : Nibble, u.reg r = if r.toNat < j then t.byte (t.ea r.toNat) else t.reg r) ⟨rfl, by simp⟩ ?_
  rintro k u hk ⟨hu, hv⟩
  have hea : u.ea k = t.ea k := by rw [hu]; rfl
  have hby : u.byte (u.ea k) = t.byte (t.ea k) := by rw [hea, hu]; rfl
  have hin : u.ea k ≤ 4095 := by rw [hea]; simp only [State.ea]; omega
  refine ⟨u.setReg (runningReg k) (t.byte (t.ea k)), ?_, ?_, ?_⟩
  · have : memRead u (u.ea k) = .ok (t.byte (t.ea k)) := memRead_ok_iff.2 ⟨hin, hby.symm⟩
    simp [this]
  · rw [hu]; rfl
  · intro r
    rw [State.reg_setReg, hv r]
    by_cases h1 : r = runningReg k
    · subst h1
      have := runningReg_toNat (k := k) (by omega)
      simp [this]
    · have h2 : r.toNat ≠ k := fun e => h1 (BitVec.eq_of_toNat_eq (by rw [runningReg_toNat (by omega), e]))
      have h3 : r.toNat < k + 1 ↔ r.toNat < k := by omega
      simp [h1, h3]

/-- A load loop that leaves memory raises the first address above 4095. -/
theorem loadLoop_error {n : Nat} {t : State} (hn : 0 < n) (hn' : n ≤ 16) (hr : t.I.toNat + n > 4096) :
    loadLoop n t = .error ⟨.memRead, if t.I.toNat ≤ 4095 then 4096 else t.I.toNat⟩ := by
  induction n with
  | zero => omega
  | succ n ih =>
    have last : ∀ u : State, u.I = t.I → 4095 < t.I.toNat + n →
        memRead u (u.ea n) = .error ⟨.memRead, t.I.toNat + n⟩ := by
      intro u hI ha
      have hea : u.ea n = t.I.toNat + n := by simp [State.ea, hI]
      exact memRead_error_iff.2 ⟨by rw [hea]; exact ha, by rw [hea]⟩
    by_cases h : t.I.toNat + n > 4096
    · rcases Nat.eq_zero_or_pos n with rfl | hpos
      · have h1 : ¬t.I.toNat ≤ 4095 := by omega
        refine forUpTo_succ_error_iff.2 (.inr ⟨t, rfl, ?_⟩)
        simp only [last t rfl (by omega)]; simp [h1]
      · exact forUpTo_succ_error_iff.2 (.inl (ih hpos (by omega) h))
    · obtain ⟨u, hu, hf, _⟩ := loadLoop_ok (n := n) (by omega) (show t.I.toNat + n ≤ 4096 by omega)
      refine forUpTo_succ_error_iff.2 (.inr ⟨u, hu, ?_⟩)
      simp only [last u (by rw [hf]) (by omega)]
      by_cases h1 : t.I.toNat ≤ 4095
      · have : t.I.toNat + n = 4096 := by omega
        simp [h1, this]
      · have : n = 0 := by omega
        simp [h1, this]

/-- Whatever it loads, a load loop changes registers alone. -/
theorem loadLoop_frame {n : Nat} {t u : State} (h : loadLoop n t = .ok u) : u = { t with V := u.V } := by
  refine forUpTo_ok_invariant (fun _ u => u = { t with V := u.V }) rfl ?_ h
  rintro k u v _ hu hb
  split at hb
  · cases hb; rw [hu]; rfl
  · cases hb

/-- A load loop raises nothing but `MEM_READ`. -/
theorem loadLoop_raises {n : Nat} {t : State} {r : Raise} (h : loadLoop n t = .error r) :
    r.sub = .memRead := by
  obtain ⟨k, u, _, _, hb⟩ := forUpTo_error_invariant (fun _ _ => True) trivial (fun _ _ _ _ _ _ => trivial) h
  split at hb
  · cases hb
  · next e he => cases hb; rw [(memRead_error_iff.1 he).2]

/-! ### The draw -/

/-- A toggled cell: inverted, and VF set if it was lit. -/
theorem togglePixel_ok_iff {i : Nat} {t u : State} :
    togglePixel i t = .ok u ↔ i ≤ 2047 ∧
      u = { (if t.pixel i = pixelOn then t.setReg flagReg 1#8 else t) with
            fb := t.fb.write i (t.pixel i ^^^ pixelOn) } := by
  by_cases h : i ≤ 2047
  · have hr : fbRead t i = .ok (t.pixel i) := fbRead_ok_iff.2 ⟨h, rfl⟩
    simp only [togglePixel, hr, h, true_and]
    rw [fbWrite_ok_iff]
    by_cases hp : t.pixel i = pixelOn <;> simp [hp, h]
  · have hr : fbRead t i = .error ⟨.fb, i⟩ := fbRead_error_iff.2 ⟨by omega, rfl⟩
    simp [togglePixel, hr, h]

theorem togglePixel_error_iff {i : Nat} {t : State} {r : Raise} :
    togglePixel i t = .error r ↔ 2047 < i ∧ r = ⟨.fb, i⟩ := by
  by_cases h : i ≤ 2047
  · have hr : fbRead t i = .ok (t.pixel i) := fbRead_ok_iff.2 ⟨h, rfl⟩
    have h' : ¬2047 < i := by omega
    simp only [togglePixel, hr, h', false_and]
    rw [fbWrite_error_iff]; simp [h']
  · have hr : fbRead t i = .error ⟨.fb, i⟩ := fbRead_error_iff.2 ⟨by omega, rfl⟩
    have h' : 2047 < i := by omega
    simp [togglePixel, hr, h', eq_comm]

/-- A framebuffer with one cell inverted stays canonical and dark-or-lit. -/
theorem togglePixel_keeps {i : Nat} {t u : State} (h : togglePixel i t = .ok u) :
    u = { t with V := u.V, fb := u.fb } ∧ (∀ r, r ≠ flagReg → u.reg r = t.reg r) ∧
      (t.fb.wf = true → u.fb.wf = true) := by
  obtain ⟨hi, rfl⟩ := togglePixel_ok_iff.1 h
  refine ⟨?_, ?_, fun hw => Framebuffer.wf_write _ hi hw⟩
  · split <;> rfl
  · intro r hr
    split
    · exact State.reg_setReg_ne t 1#8 hr
    · rfl

theorem drawRow_keeps {b : Byte} {px py r : Nat} {t u : State} (h : drawRow b px py r t = .ok u) :
    u = { t with V := u.V, fb := u.fb } ∧ (∀ r, r ≠ flagReg → u.reg r = t.reg r) ∧
      (t.fb.wf = true → u.fb.wf = true) := by
  refine forUpTo_ok_invariant (fun _ u => u = { t with V := u.V, fb := u.fb } ∧
    (∀ r, r ≠ flagReg → u.reg r = t.reg r) ∧ (t.fb.wf = true → u.fb.wf = true))
    ⟨rfl, fun _ _ => rfl, id⟩ ?_ h
  rintro k u v _ ⟨h1, h2, h3⟩ hb
  split at hb
  · obtain ⟨g1, g2, g3⟩ := togglePixel_keeps hb
    exact ⟨by rw [g1, h1], fun r hr => (g2 r hr).trans (h2 r hr), fun hw => g3 (h3 hw)⟩
  · cases hb; exact ⟨h1, h2, h3⟩

/-- A draw changes the framebuffer and VF alone, and keeps the framebuffer canonical. -/
theorem drawRows_keeps {n px py : Nat} {t u : State} (h : drawRows n px py t = .ok u) :
    u = { t with V := u.V, fb := u.fb } ∧ (∀ r, r ≠ flagReg → u.reg r = t.reg r) ∧
      (t.fb.wf = true → u.fb.wf = true) := by
  refine forUpTo_ok_invariant (fun _ u => u = { t with V := u.V, fb := u.fb } ∧
    (∀ r, r ≠ flagReg → u.reg r = t.reg r) ∧ (t.fb.wf = true → u.fb.wf = true))
    ⟨rfl, fun _ _ => rfl, id⟩ ?_ h
  rintro k u v _ ⟨h1, h2, h3⟩ hb
  split at hb
  · obtain ⟨g1, g2, g3⟩ := drawRow_keeps hb
    exact ⟨by rw [g1, h1], fun r hr => (g2 r hr).trans (h2 r hr), fun hw => g3 (h3 hw)⟩
  · cases hb

/-- A draw raises `MEM_READ` or `FB` and nothing else. -/
theorem drawRows_raises {n px py : Nat} {t : State} {r : Raise} (h : drawRows n px py t = .error r) :
    r.sub = .memRead ∨ r.sub = .fb := by
  obtain ⟨k, u, _, _, hb⟩ := forUpTo_error_invariant (fun _ _ => True) trivial (fun _ _ _ _ _ _ => trivial) h
  split at hb
  · obtain ⟨c, v, _, _, hc⟩ :=
      forUpTo_error_invariant (fun _ _ => True) trivial (fun _ _ _ _ _ _ => trivial) hb
    split at hc
    · rw [(togglePixel_error_iff.1 hc).2]; exact .inr rfl
    · cases hc
  · next e he => cases hb; rw [(memRead_error_iff.1 he).2]; exact .inl rfl

end Sys2Proof.Machine
end

