-- ==== Sys2Proof/Laws/Draw.lean ====
section
/-! SUPPORT. What a draw does, cell by cell (44_display.md R152): which cells are inverted, what VF ends as, and
which access out of range is reported (60_exceptions.md R187). -/

namespace Sys2Proof.Machine

/-- `u` is `t` with exactly the cells of `P` inverted, and VF holding `1` if one of them was lit, else `0`. -/
structure Inverted (t : State) (P : Nat → Prop) (u : State) : Prop where
  frame : u = { t with V := u.V, fb := u.fb }
  reg : ∀ r, r ≠ flagReg → u.reg r = t.reg r
  inside : ∀ i, P i → u.pixel i = t.pixel i ^^^ pixelOn
  outside : ∀ i, ¬P i → u.pixel i = t.pixel i
  flagSet : (∃ i, P i ∧ t.pixel i = pixelOn) → u.reg flagReg = 1#8
  flagClear : (¬∃ i, P i ∧ t.pixel i = pixelOn) → u.reg flagReg = 0#8

/-- The set of cells may be described another way. -/
theorem Inverted.congr {t u : State} {P Q : Nat → Prop} (h : Inverted t P u) (hPQ : ∀ i, P i ↔ Q i) :
    Inverted t Q u := by
  have : P = Q := funext fun i => propext (hPQ i)
  exact this ▸ h

/-- Nothing is inverted yet: VF is cleared. -/
theorem Inverted.start {t : State} : Inverted t (fun _ => False) (t.setReg flagReg 0#8) where
  frame := rfl
  reg := fun _ hr => State.reg_setReg_ne t 0#8 hr
  inside := fun _ h => h.elim
  outside := fun _ _ => rfl
  flagSet := fun ⟨_, h, _⟩ => h.elim
  flagClear := fun _ => State.reg_setReg_same t flagReg 0#8

/-- One more cell, not inverted before. -/
theorem Inverted.toggle {t u : State} {P : Nat → Prop} (h : Inverted t P u) {i : Nat} (hi : i ≤ 2047)
    (hP : ¬P i) : ∃ v, togglePixel i u = .ok v ∧ Inverted t (fun j => P j ∨ j = i) v := by
  refine ⟨_, togglePixel_ok_iff.2 ⟨hi, rfl⟩, ?_⟩
  have hpix : u.pixel i = t.pixel i := h.outside i hP
  have hw : ∀ j, (u.fb.write i (u.pixel i ^^^ pixelOn)).read j =
      if j = i then t.pixel i ^^^ pixelOn else u.pixel j := by
    intro j; rw [Framebuffer.read_write, hpix]; rfl
  by_cases hon : t.pixel i = pixelOn
  · have hon' : u.pixel i = pixelOn := hpix.trans hon
    simp only [hon', if_true] at hw ⊢
    refine ⟨?_, ?_, ?_, ?_, ?_, ?_⟩
    · rw [h.frame]; rfl
    · intro r hr
      exact (State.reg_setReg_ne u 1#8 hr).trans (h.reg r hr)
    · intro j hj
      refine (hw j).trans ?_
      by_cases e : j = i
      · rw [if_pos e, e]
      · rw [if_neg e]; exact h.inside j (hj.resolve_right e)
    · intro j hj
      refine (hw j).trans ?_
      rw [if_neg fun e => hj (.inr e)]; exact h.outside j fun e => hj (.inl e)
    · intro _; exact State.reg_setReg_same u flagReg 1#8
    · intro hn; exact (hn ⟨i, .inr rfl, hon⟩).elim
  · have hoff : ¬u.pixel i = pixelOn := fun e => hon (hpix.symm.trans e)
    simp only [hoff, if_false]
    refine ⟨?_, ?_, ?_, ?_, ?_, ?_⟩
    · rw [h.frame]
    · exact h.reg
    · intro j hj
      refine (hw j).trans ?_
      by_cases e : j = i
      · rw [if_pos e, e]
      · rw [if_neg e]; exact h.inside j (hj.resolve_right e)
    · intro j hj
      refine (hw j).trans ?_
      rw [if_neg fun e => hj (.inr e)]; exact h.outside j fun e => hj (.inl e)
    · rintro ⟨j, hj | rfl, hl⟩
      · exact h.flagSet ⟨j, hj, hl⟩
      · exact (hon hl).elim
    · intro hn; exact h.flagClear fun ⟨j, hj, hl⟩ => hn ⟨j, .inl hj, hl⟩

/-- The cells of columns `0 .. c - 1` of row `r` of a sprite whose row `r` is the byte `b`. -/
def rowCells (b : Byte) (px py r c : Nat) (i : Nat) : Prop :=
  ∃ c', c' < c ∧ spriteBit b c' = true ∧ i = pixelIndex px py r c'

/-- The cells of rows `0 .. n - 1` of the sprite at `I`. -/
def spriteCells (t : State) (px py n : Nat) (i : Nat) : Prop :=
  ∃ r c, r < n ∧ c < 8 ∧ spriteBit (t.byte (t.ea r)) c = true ∧ i = pixelIndex px py r c

/-- The first `c` columns of a row whose set bits are in the framebuffer. -/
theorem drawColumns_ok {t u : State} {P : Nat → Prop} {b : Byte} {px py r c : Nat} (h : Inverted t P u)
    (hc : c ≤ 8) (hr : ∀ c', c' < c → spriteBit b c' = true → pixelIndex px py r c' ≤ 2047)
    (hP : ∀ c', c' < 8 → ¬P (pixelIndex px py r c')) :
    ∃ v, forUpTo c (fun c u => if spriteBit b c then togglePixel (pixelIndex px py r c) u else .ok u) u = .ok v ∧
      Inverted t (fun i => P i ∨ rowCells b px py r c i) v := by
  refine forUpTo_completes (fun c u => Inverted t (fun i => P i ∨ rowCells b px py r c i) u) ?_ ?_
  · refine h.congr fun i => ⟨.inl, ?_⟩
    rintro (h | ⟨_, h, _⟩)
    · exact h
    · omega
  · intro k w hk hw
    by_cases hb : spriteBit b k = true
    · have hnew : ¬(P (pixelIndex px py r k) ∨ rowCells b px py r k (pixelIndex px py r k)) := by
        rintro (h | ⟨c', h1, _, h2⟩)
        · exact hP k (by omega) h
        · unfold pixelIndex at h2; omega
      obtain ⟨v, hv, hi⟩ := hw.toggle (hr k hk hb) hnew
      refine ⟨v, by rw [if_pos hb]; exact hv, hi.congr fun i => ⟨?_, ?_⟩⟩
      · rintro ((h | ⟨c', h1, h2, h3⟩) | rfl)
        · exact .inl h
        · exact .inr ⟨c', by omega, h2, h3⟩
        · exact .inr ⟨k, by omega, hb, rfl⟩
      · rintro (h | ⟨c', h1, h2, h3⟩)
        · exact .inl (.inl h)
        · by_cases e : c' = k
          · subst e; exact .inr h3
          · exact .inl (.inr ⟨c', by omega, h2, h3⟩)
    · refine ⟨w, by rw [if_neg hb], hw.congr fun i => ⟨?_, ?_⟩⟩
      · rintro (h | ⟨c', h1, h2, h3⟩)
        · exact .inl h
        · exact .inr ⟨c', by omega, h2, h3⟩
      · rintro (h | ⟨c', h1, h2, h3⟩)
        · exact .inl h
        · by_cases e : c' = k
          · subst e; exact (hb h2).elim
          · exact .inr ⟨c', by omega, h2, h3⟩

/-- Rows `0 .. n - 1` of a draw raise nothing. -/
def rowsInRange (t : State) (px py n : Nat) : Prop :=
  ∀ r, r < n → t.ea r ≤ 4095 ∧
    ∀ c, c < 8 → spriteBit (t.byte (t.ea r)) c = true → pixelIndex px py r c ≤ 2047

/-- A draw whose bytes are in memory and whose set bits are in the framebuffer completes, and inverts exactly
their cells; `P` is what was inverted before (nothing, from `Inverted.start`). -/
theorem drawRows_ok {t u : State} {n px py : Nat} (h : Inverted t (fun _ => False) u)
    (hr : rowsInRange t px py n) :
    ∃ v, drawRows n px py u = .ok v ∧ Inverted t (spriteCells t px py n) v := by
  refine forUpTo_completes (fun n u => Inverted t (spriteCells t px py n) u) ?_ ?_
  · refine h.congr fun i => ⟨False.elim, ?_⟩
    rintro ⟨_, _, h, _⟩
    omega
  · intro k w hk hw
    have hea : w.ea k = t.ea k := by rw [hw.frame]; rfl
    have hby : w.byte (w.ea k) = t.byte (t.ea k) := by rw [hea, hw.frame]; rfl
    have hm : memRead w (w.ea k) = .ok (t.byte (t.ea k)) :=
      memRead_ok_iff.2 ⟨by rw [hea]; exact (hr k hk).1, hby.symm⟩
    obtain ⟨v, hv, hi⟩ := drawColumns_ok (b := t.byte (t.ea k)) (px := px) (py := py) (r := k) (c := 8) hw
      (Nat.le_refl 8) (hr k hk).2 (by
        rintro c' hc ⟨r, c, h1, h2, _, h3⟩
        unfold pixelIndex at h3; omega)
    refine ⟨v, by simp only [hm]; exact hv, hi.congr fun i => ⟨?_, ?_⟩⟩
    · rintro (⟨r, c, h1, h2, h3, h4⟩ | ⟨c, h2, h3, h4⟩)
      · exact ⟨r, c, by omega, h2, h3, h4⟩
      · exact ⟨k, c, by omega, h2, h3, h4⟩
    · rintro ⟨r, c, h1, h2, h3, h4⟩
      by_cases e : r = k
      · subst e; exact .inr ⟨c, h2, h3, h4⟩
      · exact .inl ⟨r, c, by omega, h2, h3, h4⟩

/-- A raise in one round of a loop, after rounds that complete, is the loop's. -/
theorem forUpTo_error_of_lt {n k : Nat} {body : Nat → State → Except Raise State} {s u : State} {r : Raise}
    (hk : k < n) (hu : forUpTo k body s = .ok u) (hb : body k u = .error r) :
    forUpTo n body s = .error r := by
  induction n with
  | zero => omega
  | succ n ih =>
    refine forUpTo_succ_error_iff.2 ?_
    by_cases e : k = n
    · subst e; exact .inr ⟨u, hu, hb⟩
    · exact .inl (ih (by omega))

/-- A draw whose rows before `r` are in range reports row `r`'s byte if it is not in memory. -/
theorem drawRows_memRead {t u : State} {n px py r : Nat} (h : Inverted t (fun _ => False) u) (hn : r < n)
    (hr : rowsInRange t px py r) (hb : t.ea r > 4095) :
    drawRows n px py u = .error ⟨.memRead, t.ea r⟩ := by
  obtain ⟨w, hw, hi⟩ := drawRows_ok h hr
  have hea : w.ea r = t.ea r := by rw [hi.frame]; rfl
  have hm : memRead w (w.ea r) = .error ⟨.memRead, t.ea r⟩ :=
    memRead_error_iff.2 ⟨by rw [hea]; exact hb, by rw [hea]⟩
  exact forUpTo_error_of_lt hn hw (by simp only [hm])

/-- A draw whose rows before `r`, and set bits before column `c` of row `r`, are in range reports the cell of
column `c` if its bit is set and the cell is not in the framebuffer. -/
theorem drawRows_fb {t u : State} {n px py r c : Nat} (h : Inverted t (fun _ => False) u) (hn : r < n)
    (hr : rowsInRange t px py r) (hb : t.ea r ≤ 4095) (hc : c < 8)
    (hs : spriteBit (t.byte (t.ea r)) c = true) (hi : pixelIndex px py r c > 2047)
    (hbef : ∀ c', c' < c → spriteBit (t.byte (t.ea r)) c' = true → pixelIndex px py r c' ≤ 2047) :
    drawRows n px py u = .error ⟨.fb, pixelIndex px py r c⟩ := by
  obtain ⟨w, hw, hi'⟩ := drawRows_ok h hr
  have hea : w.ea r = t.ea r := by rw [hi'.frame]; rfl
  have hby : w.byte (w.ea r) = t.byte (t.ea r) := by rw [hea, hi'.frame]; rfl
  have hm : memRead w (w.ea r) = .ok (t.byte (t.ea r)) :=
    memRead_ok_iff.2 ⟨by rw [hea]; exact hb, hby.symm⟩
  obtain ⟨v, hv, _⟩ := drawColumns_ok (b := t.byte (t.ea r)) (px := px) (py := py) (r := r) (c := c) hi'
    (by omega) hbef (by
      rintro c' hc ⟨r', c'', h1, h2, _, h3⟩
      unfold pixelIndex at h3; omega)
  refine forUpTo_error_of_lt hn hw ?_
  simp only [hm]
  exact forUpTo_error_of_lt hc hv (by rw [if_pos hs]; exact togglePixel_error_iff.2 ⟨hi, rfl⟩)

end Sys2Proof.Machine
end

