-- ==== Sys2Proof/Laws/HostEvents.lean ====
section
/-! SUPPORT. What an event of the host or the core can do to a session (00_scope.md R11), and what makes a state an
end of a run (70_reset_and_hazards.md R226). -/

namespace Sys2Proof.Machine

/-! ### Events -/

theorem State.loadProgram_ok_iff {s t : State} {bytes : List Byte} :
    s.loadProgram bytes = .ok t ↔
      (1 ≤ bytes.length ∧ bytes.length ≤ progMax) ∧ t = { s with mem := s.mem.writeBlock progBase bytes } := by
  unfold State.loadProgram
  split
  · simp; omega
  · split
    · simp; omega
    · simp only [Except.ok.injEq, eq_comm (b := t)]
      constructor
      · rintro rfl; exact ⟨⟨by omega, by omega⟩, rfl⟩
      · exact fun h => h.2

/-- Everything an event can do to the state of a session. -/
theorem Session.apply_state {z z' : Session} {e : Event} (h : z.apply e = some z') :
    z'.state = z.state ∨ z'.state = z.state.resetEvent ∨ z'.state = z.state.loadGlyphs ∨
    (∃ bytes, z.state.loadProgram bytes = .ok z'.state) ∨
    (∃ rnd, z.state.stepEvent rnd = .next z'.state) ∨ (∃ k, z'.state = z.state.setKeys k) ∨
    z'.state = z.state.tick := by
  cases e <;> simp only [Session.apply] at h
  case loadProgram bytes =>
    split at h <;> simp only [Option.some.injEq, reduceCtorEq] at h <;> subst h
    · exact .inl rfl
    · exact .inr (.inr (.inr (.inl ⟨bytes, by assumption⟩)))
  case step rnd =>
    split at h <;> try split at h
    all_goals simp only [Option.some.injEq, reduceCtorEq] at h
    all_goals subst h
    all_goals exact .inr (.inr (.inr (.inr (.inl ⟨rnd, by assumption⟩))))
  case loadGlyphs =>
    split at h
    · obtain rfl := Option.some.inj h; simp
    · cases h
  case setKeys k => obtain rfl := Option.some.inj h; exact .inr (.inr (.inr (.inr (.inr (.inl ⟨k, rfl⟩)))))
  all_goals obtain rfl := Option.some.inj h; simp

/-! ### The end of a run -/

theorem State.fetchPasses_iff {s : State} {test : Word → Bool} :
    s.fetchPasses test = true ↔ ∃ w, fetch s = .ok w ∧ test w = true := by
  unfold State.fetchPasses
  cases fetch s <;> simp

theorem isJumpTo_iff {a w : Word} :
    isJumpTo a w = true ↔ ∃ nnn : Imm12, nnn.toNat = a.toNat ∧ w = encode (.jp nnn) := by
  have key : ∀ nnn : Imm12, targetOf nnn = a ↔ nnn.toNat = a.toNat := fun nnn => by
    unfold targetOf
    rw [← BitVec.toNat_inj, BitVec.toNat_ofNat, Nat.mod_eq_of_lt (by omega)]
  simp only [isJumpTo, Bool.and_eq_true, beq_iff_eq]
  constructor
  · exact fun ⟨h, ha⟩ => ⟨fieldNnn w, (key _).1 ha, h⟩
  · rintro ⟨nnn, ha, rfl⟩
    have hn : fieldNnn (encode (.jp nnn)) = nnn := by simp [encode]
    rw [hn]
    exact ⟨rfl, (key _).2 ha⟩

theorem State.endOfRun_of_fault {s : State} (h : s.fault ≠ none) : s.endOfRun = false := by
  cases hf : s.fault <;> simp_all [State.endOfRun]

theorem State.endOfRun_of_running {s : State} (h : s.fault = none) : s.endOfRun = s.meets s.cfg.endOfRun := by
  simp [State.endOfRun, h]

end Sys2Proof.Machine
end

