-- ==== Sys2Proof/Laws/PerInstr.lean ====
section
/-! SUPPORT. Statements about every instruction as syntax, one lemma per constructor. Family `RowMatch`: the word the
encoder gives an instruction is selected by the instruction's row of the opcode map (30_encoding.md R66). -/

namespace Sys2Proof.Laws.RowMatch

/-- The word of `i` carries the fixed bits of the row of `i`. -/
def Statement (i : Instr) : Prop := (rowOf i).selectedBy (encode i) = true

theorem rowMatch_layoutXKk (g x : Nibble) (k : Byte) : layoutXKk g x k &&& 0xF000#16 = layoutNnn g 0#12 := by
  simp [and_groupMask]

theorem rowMatch_layoutXYN (g x y n : Nibble) : layoutXYN g x y n &&& 0xF000#16 = layoutNnn g 0#12 := by
  simp [and_groupMask]

theorem rowMatch_layoutNnn (g : Nibble) (a : Imm12) : layoutNnn g a &&& 0xF000#16 = layoutNnn g 0#12 := by
  simp [and_groupMask]

theorem rowMatch_layoutXKk_byte (g x : Nibble) (k : Byte) :
    layoutXKk g x k &&& 0xF0FF#16 = layoutXKk g 0#4 k := by
  simp [and_byteMask]

theorem rowMatch_layoutXYN_nibble (g x y n : Nibble) :
    layoutXYN g x y n &&& 0xF00F#16 = layoutXYN g 0#4 0#4 n := by
  simp [and_nibbleMask]

theorem cls (ign : Nibble) : Statement (.cls ign) :=
  (beq_iff_eq ..).2 (rowMatch_layoutXKk_byte ..)

theorem ret (ign : Nibble) : Statement (.ret ign) :=
  (beq_iff_eq ..).2 (rowMatch_layoutXKk_byte ..)

theorem sys (nnn : Imm12) : Statement (.sys nnn) :=
  (beq_iff_eq ..).2 (rowMatch_layoutNnn ..)

theorem jp (nnn : Imm12) : Statement (.jp nnn) :=
  (beq_iff_eq ..).2 (rowMatch_layoutNnn ..)

theorem call (nnn : Imm12) : Statement (.call nnn) :=
  (beq_iff_eq ..).2 (rowMatch_layoutNnn ..)

theorem seImm (x : Nibble) (kk : Byte) : Statement (.seImm x kk) :=
  (beq_iff_eq ..).2 (rowMatch_layoutXKk ..)

theorem sneImm (x : Nibble) (kk : Byte) : Statement (.sneImm x kk) :=
  (beq_iff_eq ..).2 (rowMatch_layoutXKk ..)

theorem seReg (x : Nibble) (y : Nibble) (ign : Nibble) : Statement (.seReg x y ign) :=
  (beq_iff_eq ..).2 (rowMatch_layoutXYN ..)

theorem ldImm (x : Nibble) (kk : Byte) : Statement (.ldImm x kk) :=
  (beq_iff_eq ..).2 (rowMatch_layoutXKk ..)

theorem addImm (x : Nibble) (kk : Byte) : Statement (.addImm x kk) :=
  (beq_iff_eq ..).2 (rowMatch_layoutXKk ..)

theorem ldReg (x : Nibble) (y : Nibble) : Statement (.ldReg x y) :=
  (beq_iff_eq ..).2 (rowMatch_layoutXYN_nibble ..)

theorem orReg (x : Nibble) (y : Nibble) : Statement (.orReg x y) :=
  (beq_iff_eq ..).2 (rowMatch_layoutXYN_nibble ..)

theorem andReg (x : Nibble) (y : Nibble) : Statement (.andReg x y) :=
  (beq_iff_eq ..).2 (rowMatch_layoutXYN_nibble ..)

theorem xorReg (x : Nibble) (y : Nibble) : Statement (.xorReg x y) :=
  (beq_iff_eq ..).2 (rowMatch_layoutXYN_nibble ..)

theorem addReg (x : Nibble) (y : Nibble) : Statement (.addReg x y) :=
  (beq_iff_eq ..).2 (rowMatch_layoutXYN_nibble ..)

theorem subReg (x : Nibble) (y : Nibble) : Statement (.subReg x y) :=
  (beq_iff_eq ..).2 (rowMatch_layoutXYN_nibble ..)

theorem shr (x : Nibble) (ign : Nibble) : Statement (.shr x ign) :=
  (beq_iff_eq ..).2 (rowMatch_layoutXYN_nibble ..)

theorem subnReg (x : Nibble) (y : Nibble) : Statement (.subnReg x y) :=
  (beq_iff_eq ..).2 (rowMatch_layoutXYN_nibble ..)

theorem shl (x : Nibble) (ign : Nibble) : Statement (.shl x ign) :=
  (beq_iff_eq ..).2 (rowMatch_layoutXYN_nibble ..)

theorem sneReg (x : Nibble) (y : Nibble) (ign : Nibble) : Statement (.sneReg x y ign) :=
  (beq_iff_eq ..).2 (rowMatch_layoutXYN ..)

theorem ldI (nnn : Imm12) : Statement (.ldI nnn) :=
  (beq_iff_eq ..).2 (rowMatch_layoutNnn ..)

theorem jpV0 (nnn : Imm12) : Statement (.jpV0 nnn) :=
  (beq_iff_eq ..).2 (rowMatch_layoutNnn ..)

theorem rnd (x : Nibble) (kk : Byte) : Statement (.rnd x kk) :=
  (beq_iff_eq ..).2 (rowMatch_layoutXKk ..)

theorem drw (x : Nibble) (y : Nibble) (n : Nibble) : Statement (.drw x y n) :=
  (beq_iff_eq ..).2 (rowMatch_layoutXYN ..)

theorem skp (x : Nibble) : Statement (.skp x) :=
  (beq_iff_eq ..).2 (rowMatch_layoutXKk_byte ..)

theorem sknp (x : Nibble) : Statement (.sknp x) :=
  (beq_iff_eq ..).2 (rowMatch_layoutXKk_byte ..)

theorem ldVxDt (x : Nibble) : Statement (.ldVxDt x) :=
  (beq_iff_eq ..).2 (rowMatch_layoutXKk_byte ..)

theorem ldVxK (x : Nibble) : Statement (.ldVxK x) :=
  (beq_iff_eq ..).2 (rowMatch_layoutXKk_byte ..)

theorem ldDtVx (x : Nibble) : Statement (.ldDtVx x) :=
  (beq_iff_eq ..).2 (rowMatch_layoutXKk_byte ..)

theorem ldStVx (x : Nibble) : Statement (.ldStVx x) :=
  (beq_iff_eq ..).2 (rowMatch_layoutXKk_byte ..)

theorem addI (x : Nibble) : Statement (.addI x) :=
  (beq_iff_eq ..).2 (rowMatch_layoutXKk_byte ..)

theorem ldF (x : Nibble) : Statement (.ldF x) :=
  (beq_iff_eq ..).2 (rowMatch_layoutXKk_byte ..)

theorem ldB (x : Nibble) : Statement (.ldB x) :=
  (beq_iff_eq ..).2 (rowMatch_layoutXKk_byte ..)

theorem stRegs (x : Nibble) : Statement (.stRegs x) :=
  (beq_iff_eq ..).2 (rowMatch_layoutXKk_byte ..)

theorem ldRegs (x : Nibble) : Statement (.ldRegs x) :=
  (beq_iff_eq ..).2 (rowMatch_layoutXKk_byte ..)

theorem nop8 (ign : Imm12) : Statement (.nop8 ign) :=
  (beq_iff_eq ..).2 (rowMatch_layoutNnn ..)

theorem nope (ign : Imm12) : Statement (.nope ign) :=
  (beq_iff_eq ..).2 (rowMatch_layoutNnn ..)

theorem nopf (ign : Imm12) : Statement (.nopf ign) :=
  (beq_iff_eq ..).2 (rowMatch_layoutNnn ..)

end Sys2Proof.Laws.RowMatch
end

