-- ==== Sys2Proof/Tests/Slice0.lean ====
section
/-! SUPPORT. The model's own tests. Expected values come from spec/: the opcode map (30_encoding.md R66) for
decoding, the vectors of 95_test_vectors.md (their ids in the comments) for one step, and for each obligation with
hypotheses a witness that meets them, at the boundary values of its clauses. -/

open Sys2Proof Sys2Proof.Machine Sys2Proof.Claim

namespace Sys2Proof.Tests

/-! ### Helpers -/

/-- The state after reset with some registers set. -/
def withRegs (l : List (Nibble × Byte)) : State := l.foldl (fun s p => s.setReg p.1 p.2) State.reset

/-- Some keys down. -/
def keysDown (l : List Nat) : Vector Bool 16 := Vector.ofFn fun k => decide (k.val ∈ l)

/-- The reset state with a configuration. -/
def withConfig (op : Op8xy0) (b : BnnnTarget) (f : Fx65Direction) (s : State) : State :=
  { s with cfg := { s.cfg with op8xy0 := op, bnnnTarget := b, fx65Direction := f } }

/-- The state a step answers. -/
def answer (o : Host.Outcome State Fault Refusal) (s : State) : State :=
  match o with
  | .next t => t
  | .fault _ => s
  | .refused _ => s

/-- One step of a word placed at `pc`. -/
def stepWord (w : Word) (s : State) : State := answer (step (s.placeWord w)) s

/-- One step. -/
def stepOnce (s : State) : State := answer (step s) s

/-- The indices of the lit cells. -/
def lit (s : State) : List Nat := s.fb.map Prod.fst

/-- A framebuffer with these cells lit. -/
def fbLit (l : List Nat) : Framebuffer := l.map fun i => (i, pixelOn)

/-- The latch as numbers: code, address, info. -/
def latch (s : State) : Option (Nat × Nat × Nat) := s.fault.map fun f => (f.cause.code, f.at_.toNat, f.info)

/-! ### WellFormed: each check refuses an ill-formed term -/

theorem test_wf_sys_refuses_cls : ¬(Instr.sys 0x0E0).WellFormed := by decide
theorem test_wf_sys_refuses_ret : ¬(Instr.sys 0xBEE).WellFormed := by decide
theorem test_wf_nop8_refuses_rows : ¬(Instr.nop8 0x120).WellFormed ∧ ¬(Instr.nop8 0x127).WellFormed ∧
    ¬(Instr.nop8 0x12E).WellFormed := by decide
theorem test_wf_nope_refuses_rows : ¬(Instr.nope 0x19E).WellFormed ∧ ¬(Instr.nope 0x1A1).WellFormed := by decide
theorem test_wf_nopf_refuses_rows : ¬(Instr.nopf 0x107).WellFormed ∧ ¬(Instr.nopf 0x155).WellFormed ∧
    ¬(Instr.nopf 0x165).WellFormed := by decide

/-! ### Decoding: a word of every row of the map, written out from R66 -/

theorem test_decode_group0 : decodeWord 0x00E0 = .cls 0 ∧ decodeWord 0x01E0 = .cls 1 ∧
    decodeWord 0x00EE = .ret 0 ∧ decodeWord 0x03EE = .ret 3 ∧ decodeWord 0x0123 = .sys 0x123 ∧
    decodeWord 0x0000 = .sys 0 := by decide
theorem test_decode_jumps : decodeWord 0x1ABC = .jp 0xABC ∧ decodeWord 0x2300 = .call 0x300 ∧
    decodeWord 0xB300 = .jpV0 0x300 := by decide
theorem test_decode_skips : decodeWord 0x332A = .seImm 3 0x2A ∧ decodeWord 0x432A = .sneImm 3 0x2A ∧
    decodeWord 0x5127 = .seReg 1 2 7 ∧ decodeWord 0x912F = .sneReg 1 2 0xF := by decide
theorem test_decode_immediates : decodeWord 0x6A7F = .ldImm 0xA 0x7F ∧ decodeWord 0x7202 = .addImm 2 0x02 ∧
    decodeWord 0xC30F = .rnd 3 0x0F := by decide
theorem test_decode_group8 : decodeWord 0x8120 = .ldReg 1 2 ∧ decodeWord 0x8121 = .orReg 1 2 ∧
    decodeWord 0x8122 = .andReg 1 2 ∧ decodeWord 0x8123 = .xorReg 1 2 ∧ decodeWord 0x8124 = .addReg 1 2 ∧
    decodeWord 0x8125 = .subReg 1 2 ∧ decodeWord 0x8126 = .shr 1 2 ∧ decodeWord 0x8127 = .subnReg 1 2 ∧
    decodeWord 0x812E = .shl 1 2 ∧ decodeWord 0x812F = .nop8 0x12F := by decide
theorem test_decode_index : decodeWord 0xA2F0 = .ldI 0x2F0 ∧ decodeWord 0xF41E = .addI 4 ∧
    decodeWord 0xF229 = .ldF 2 ∧ decodeWord 0xF033 = .ldB 0 ∧ decodeWord 0xF255 = .stRegs 2 ∧
    decodeWord 0xF265 = .ldRegs 2 := by decide
theorem test_decode_draw : decodeWord 0xD12F = .drw 1 2 15 := by decide
theorem test_decode_keys_timers : decodeWord 0xE59E = .skp 5 ∧ decodeWord 0xE5A1 = .sknp 5 ∧
    decodeWord 0xF30A = .ldVxK 3 ∧ decodeWord 0xF407 = .ldVxDt 4 ∧ decodeWord 0xF415 = .ldDtVx 4 ∧
    decodeWord 0xF418 = .ldStVx 4 := by decide
theorem test_decode_reserved : decodeWord 0xE19F = .nope 0x19F ∧ decodeWord 0xE0A0 = .nope 0x0A0 ∧
    decodeWord 0xF175 = .nopf 0x175 ∧ decodeWord 0xF0FF = .nopf 0x0FF := by decide
theorem test_encode_words : encode (.drw 1 2 15) = 0xD12F ∧ encode (.jp 0xABC) = 0x1ABC ∧
    encode (.ldRegs 2) = 0xF265 ∧ encode (.shl 1 2) = 0x812E ∧ encode (.ret 3) = 0x03EE := by decide
theorem test_decode_bytes_big_endian : decode [0x6A, 0x7F, 0x12] = .ok (.ldImm 0xA 0x7F, [0x12]) := by decide
theorem test_decode_refuses_one_byte : decode [0x6A] = .error .tooFewBytes := by decide
theorem test_table_word : decodeTableWord 16 0xD12F = some (.drw 1 2 15) ∧ decodeTableWord 24 0 = none := by
  decide
theorem test_group0_specific_row_wins : (rowOf (decodeWord 0x00E0)).mask = 0xF0FF#16 ∧
    (rowOf (decodeWord 0x00E1)).mask = 0xF000#16 := by decide

/-! ### One step of each instruction -/

/-- V40-2. -/
theorem test_sys : (stepWord 0x0123 State.reset).pc = 0x202 ∧ (stepWord 0x0123 State.reset).ir = 0x0123 := by
  decide
/-- V40-4. -/
theorem test_nop8 : (stepWord 0x812F (withRegs [(1, 7), (2, 9), (0xF, 1)])).V =
    (withRegs [(1, 7), (2, 9), (0xF, 1)]).V := by decide
/-- V40-5. -/
theorem test_nope : latch (stepWord 0xE19F (withRegs [(1, 0xFF)])) = none := by decide
/-- V40-6. -/
theorem test_nopf : latch (stepWord 0xF175 { State.reset with I := 0xFFFF }) = none := by decide
/-- V40-7. -/
theorem test_fetch_at_4094 : (stepWord 0x6A7F { State.reset with pc := 4094 }).reg 0xA = 0x7F ∧
    (stepWord 0x6A7F { State.reset with pc := 4094 }).pc = 0x1000 := by decide
/-- V40-8, V40-10. -/
theorem test_fetch_faults : latch (stepOnce { State.reset with pc := 4095 }) = some (1, 4095, 4096) ∧
    latch (stepOnce { State.reset with pc := 0xFFFF }) = some (1, 65535, 65535) := by decide
/-- V40-11. -/
theorem test_halted : stepOnce (stepOnce { State.reset with pc := 4095 }) =
    stepOnce { State.reset with pc := 4095 } := by decide

/-- V40-3. -/
theorem test_cls_ignores_bits : lit (stepWord 0x01E0 { State.reset with fb := fbLit [0, 5, 2047] }) = [] := by
  decide
/-- V44-1. -/
theorem test_cls_keeps_flag : (stepWord 0x00E0 { withRegs [(0xF, 1)] with fb := fbLit [0] }).reg 0xF = 1 := by
  decide
/-- V41-7. -/
theorem test_ret_from_16 : (stepWord 0x00EE { State.reset with
      sp := 16, stack := State.reset.stack.set 15 0x456 }).pc = 0x456 ∧
    (stepWord 0x00EE { State.reset with sp := 16 }).sp = 15 := by decide
/-- V41-8. -/
theorem test_ret_empty : latch (stepWord 0x00EE State.reset) = some (7, 0x200, 255) := by decide
/-- V41-1. -/
theorem test_jp : (stepWord 0x1ABC State.reset).pc = 0xABC := by decide
/-- V41-4. -/
theorem test_call_16th : (stepWord 0x2300 { State.reset with sp := 15 }).stack[15] = 0x202 ∧
    (stepWord 0x2300 { State.reset with sp := 15 }).sp = 16 := by decide
/-- V41-5. -/
theorem test_call_17th : latch (stepWord 0x2300 { State.reset with sp := 16 }) = some (6, 0x200, 16) := by decide
/-- V41-10, V41-11. -/
theorem test_seImm : (stepWord 0x332A (withRegs [(3, 0x2A)])).pc = 0x204 ∧
    (stepWord 0x332A (withRegs [(3, 0x2B)])).pc = 0x202 := by decide
/-- V41-12, V41-13. -/
theorem test_sneImm : (stepWord 0x432A (withRegs [(3, 0x2A)])).pc = 0x202 ∧
    (stepWord 0x432A State.reset).pc = 0x204 := by decide
/-- V41-16, V41-15. -/
theorem test_seReg : (stepWord 0x5127 (withRegs [(1, 5), (2, 5)])).pc = 0x204 ∧
    (stepWord 0x5120 (withRegs [(1, 5), (2, 6)])).pc = 0x202 := by decide
/-- V41-20, V41-19. -/
theorem test_sneReg : (stepWord 0x912F (withRegs [(1, 5), (2, 6)])).pc = 0x204 ∧
    (stepWord 0x9120 (withRegs [(1, 5), (2, 5)])).pc = 0x202 := by decide
/-- V41-25. -/
theorem test_jpV0_index : (stepWord 0xBFFF (withRegs [(0, 0xFF)])).I = 0x10FE ∧
    (stepWord 0xBFFF (withRegs [(0, 0xFF)])).pc = 0x202 := by decide
/-- V41-26. -/
theorem test_jpV0_pc : (stepWord 0xBFFF (withConfig .move .pc .store (withRegs [(0, 0xFF)]))).pc = 0x10FE := by
  decide

/-- V42-2. -/
theorem test_ldImm : (stepWord 0x6F55 State.reset).reg 0xF = 0x55 := by decide
/-- V42-3. -/
theorem test_addImm : (stepWord 0x7202 (withRegs [(2, 0xFF)])).reg 2 = 1 ∧
    (stepWord 0x7202 (withRegs [(2, 0xFF)])).reg 0xF = 0 := by decide
/-- V42-41. -/
theorem test_ldReg_move : (stepWord 0x8120 (withRegs [(1, 1), (2, 9)])).reg 1 = 9 := by decide
/-- V42-42. -/
theorem test_ldReg_noop : (stepWord 0x8120 (withConfig .noop .index .store (withRegs [(1, 1), (2, 9)]))).reg 1 = 1 := by
  decide
/-- V42-7. -/
theorem test_orReg : (stepWord 0x8121 (withRegs [(1, 0x0C), (2, 0x0A), (0xF, 1)])).reg 1 = 0x0E ∧
    (stepWord 0x8121 (withRegs [(1, 0x0C), (2, 0x0A), (0xF, 1)])).reg 0xF = 1 := by decide
/-- V42-8. -/
theorem test_andReg : (stepWord 0x8122 (withRegs [(1, 0x0C), (2, 0x0A)])).reg 1 = 0x08 := by decide
/-- V42-9. -/
theorem test_xorReg : (stepWord 0x8123 (withRegs [(1, 0x0C), (2, 0x0A)])).reg 1 = 0x06 := by decide
/-- V42-13, V42-12. -/
theorem test_addReg : (stepWord 0x8124 (withRegs [(1, 0xFF), (2, 1)])).V = (withRegs [(2, 1), (0xF, 1)]).V ∧
    (stepWord 0x8124 (withRegs [(1, 0xF0), (2, 0x0F), (0xF, 1)])).reg 0xF = 0 := by decide
/-- V42-16. -/
theorem test_addReg_into_flag : (stepWord 0x8F14 (withRegs [(0xF, 0xF0), (1, 0x20)])).reg 0xF = 0x10 := by decide
/-- V42-20. -/
theorem test_subReg_equal : (stepWord 0x8125 (withRegs [(1, 7), (2, 7), (0xF, 1)])).reg 0xF = 0 := by decide
/-- V42-24. -/
theorem test_subReg_flag_operand : (stepWord 0x81F5 (withRegs [(1, 9), (0xF, 4)])).V =
    (withRegs [(1, 5), (0xF, 1)]).V := by decide
/-- V42-27. -/
theorem test_shr : (stepWord 0x8126 (withRegs [(1, 0xFF), (2, 0x10)])).V =
    (withRegs [(1, 0x7F), (2, 0x10), (0xF, 1)]).V := by decide
/-- V42-30. -/
theorem test_shr_flag : (stepWord 0x8F06 (withRegs [(0xF, 6)])).reg 0xF = 3 := by decide
/-- V42-32. -/
theorem test_subnReg : (stepWord 0x8127 (withRegs [(1, 5), (2, 3)])).reg 1 = 0xFE ∧
    (stepWord 0x8127 (withRegs [(1, 3), (2, 5)])).reg 0xF = 1 := by decide
/-- V42-39. -/
theorem test_shl : (stepWord 0x812E (withRegs [(1, 0xFF), (2, 7)])).V =
    (withRegs [(1, 0xFE), (2, 7), (0xF, 1)]).V := by decide
/-- V42-37. -/
theorem test_shl_no_carry : (stepWord 0x810E (withRegs [(1, 0x40), (0xF, 1)])).V = (withRegs [(1, 0x80)]).V := by
  decide
/-- V42-44, and that the step uses the byte up. -/
theorem test_rnd : (stepWord 0xC30F { State.reset with rnd := some 0xA7 }).reg 3 = 7 ∧
    (stepWord 0xC30F { State.reset with rnd := some 0xA7 }).rnd = none := by decide

/-- V43-1. -/
theorem test_ldI : (stepWord 0xA2F0 { State.reset with I := 0xFFFF }).I = 0x2F0 := by decide
/-- V43-4, V43-5. -/
theorem test_addI : (stepWord 0xF41E { withRegs [(4, 1)] with I := 0x0FFF }).I = 0x1000 ∧
    (stepWord 0xF41E { withRegs [(4, 0xFF)] with I := 0xFF01 }).I = 0 := by decide
/-- V43-6. -/
theorem test_ldF : (stepWord 0xF229 (withRegs [(2, 15)])).I = 0x9B ∧
    (stepWord 0xF229 (withRegs [(2, 255)])).I = 0x54B := by decide
/-- V43-17. -/
theorem test_ldB : (stepWord 0xF033 { withRegs [(0, 123)] with I := 4093 }).mem =
    [(0x200, 0xF0), (0x201, 0x33), (4093, 1), (4094, 2), (4095, 3)] := by decide
/-- V43-18. -/
theorem test_ldB_faults : latch (stepWord 0xF033 { withRegs [(0, 123)] with I := 4094 }) = some (3, 0x200, 4096) ∧
    (stepWord 0xF033 { withRegs [(0, 123)] with I := 4094 }).byte 4094 = 0 := by decide
/-- V43-9. -/
theorem test_stRegs : (stepWord 0xF255 { withRegs [(0, 1), (1, 2), (2, 3), (3, 4)] with I := 0x400 }).mem =
    [(0x200, 0xF2), (0x201, 0x55), (0x400, 1), (0x401, 2), (0x402, 3)] := by decide
/-- V43-13. -/
theorem test_stRegs_faults : latch (stepWord 0xF155 { withRegs [(0, 7), (1, 8)] with I := 4095 }) =
    some (3, 0x200, 4096) := by decide
/-- V43-8, `store`. -/
theorem test_ldRegs_store : (stepWord 0xF265 { withRegs [(0, 1), (1, 2), (2, 3), (3, 4)] with
      I := 0x400, mem := [(0x400, 9), (0x401, 8), (0x402, 7), (0x403, 6)] }).mem =
    [(0x200, 0xF2), (0x201, 0x65), (0x400, 1), (0x401, 2), (0x402, 3), (0x403, 6)] := by decide
/-- V43-8, `load`. -/
theorem test_ldRegs_load : (stepWord 0xF265 (withConfig .move .index .load
      { withRegs [(0, 1), (1, 2), (2, 3), (3, 4)] with
        I := 0x400, mem := [(0x400, 9), (0x401, 8), (0x402, 7), (0x403, 6)] })).V =
    (withRegs [(0, 9), (1, 8), (2, 7), (3, 4)]).V := by decide

/-- V44-19: a lit cell turned off, a dark one turned on. -/
theorem test_drw_collision :
    lit (stepWord 0xD121 { State.reset with I := 0x300, mem := [(0x300, 0xC0)], fb := fbLit [1, 2] }) = [0, 2] ∧
    (stepWord 0xD121 { State.reset with I := 0x300, mem := [(0x300, 0xC0)], fb := fbLit [1, 2] }).reg 0xF = 1 := by
  decide
/-- V44-7, V44-17: off the array; and the position read from VF before it is cleared. -/
theorem test_drw_edges :
    latch (stepWord 0xD121 { withRegs [(1, 60), (2, 31)] with I := 0x300, mem := [(0x300, 0xFF)] }) =
      some (4, 0x200, 2048) ∧
    lit (stepWord 0xDF11 { withRegs [(0xF, 5), (1, 2)] with I := 0x300, mem := [(0x300, 0x80)] }) = [133] := by
  decide

/-- V45-5. -/
theorem test_skp : (stepWord 0xE59E { withRegs [(5, 15)] with keys := keysDown [15] }).pc = 0x204 := by decide
/-- V45-6. -/
theorem test_skp_faults : latch (stepWord 0xE59E { withRegs [(5, 16)] with keys := keysDown [0] }) =
    some (5, 0x200, 16) := by decide
/-- V45-3. -/
theorem test_sknp : (stepWord 0xE5A1 (withRegs [(5, 10)])).pc = 0x204 := by decide
/-- V45-4. -/
theorem test_sknp_down : (stepWord 0xE5A1 { withRegs [(5, 10)] with keys := keysDown [10] }).pc = 0x202 := by
  decide
/-- V45-8. -/
theorem test_ldVxK_waits : (stepWord 0xF30A (withRegs [(3, 0x77)])).pc = 0x200 := by decide
/-- V45-9. -/
theorem test_ldVxK_lowest : (stepWord 0xF30A { withRegs [(3, 0x77)] with keys := keysDown [4, 9] }).reg 3 = 4 := by
  decide
/-- V45-15. -/
theorem test_ldVxDt : (stepWord 0xF407 { withRegs [(4, 1)] with st := 9 }).reg 4 = 0 ∧
    (stepWord 0xF407 { State.reset with dt := 0x1E }).reg 4 = 0x1E := by decide
/-- V45-13. -/
theorem test_ldDtVx : (stepWord 0xF415 (withRegs [(4, 0x3C)])).dt = 0x3C := by decide
/-- V45-14. -/
theorem test_ldStVx : (stepWord 0xF418 (withRegs [(4, 5)])).st = 5 ∧
    (stepWord 0xF418 (withRegs [(4, 5)])).dt = 0 := by decide

/-! ### The host's events -/

/-- V60-4, V60-3. -/
theorem test_tick : ({ State.reset with dt := 255, st := 1 } : State).tick = { State.reset with dt := 254 } ∧
    State.reset.tick = State.reset := by decide
/-- V70-2: the table ends at 0x09F. -/
theorem test_load_glyphs : State.reset.loadGlyphs.byte 0x50 = 0xF0 ∧ State.reset.loadGlyphs.byte 0x9F = 0x80 ∧
    State.reset.loadGlyphs.byte 0x4F = 0 ∧ State.reset.loadGlyphs.byte 0xA0 = 0 := by decide +kernel
/-- V70-4, V70-5. -/
theorem test_load_program : State.reset.loadProgram [0x12, 0x00] =
      .ok { State.reset with mem := [(0x200, 0x12)] } ∧
    State.reset.loadProgram [] = .error .emptyProgram := by decide
/-- V60-7. -/
theorem test_reset_event : ({ State.reset with fault := some ⟨.key, 0, 16⟩, I := 5 } : State).resetEvent =
    State.reset := by decide

/-! ### Witnesses: for each obligation with hypotheses, states and operands that meet them -/

/-- A halted state: V41-8. -/
def halted : State := { State.reset with fault := some ⟨.stackUnderflow, 0x200, 255⟩ }

/-- A self-jump at 0x200, reached by the boot of V70-4. -/
def selfJump : State := { State.reset with mem := [(0x200, 0x12)] }

/-- A draw of one row at cell 2047 (V44-5), its byte at 0x300. -/
def drawLast : State := { withRegs [(1, 63), (2, 31)] with I := 0x300, mem := [(0x300, 0x80)] }

theorem witness_StepExecutesTheFetchedInstruction :
    selfJump.fault = none ∧ selfJump.pc.toNat + 1 ≤ 4095 ∧
    decode [selfJump.byte selfJump.pc.toNat, selfJump.byte (selfJump.pc.toNat + 1)] = .ok (.jp 0x200, []) := by
  decide
theorem witness_StepExecutes_last_pc : ({ State.reset with pc := 4094 } : State).pc.toNat + 1 ≤ 4095 ∧
    decode [({ State.reset with pc := 4094 } : State).byte 4094, ({ State.reset with pc := 4094 } : State).byte 4095] =
      .ok (.sys 0, []) := by decide
theorem witness_FetchOutsideMemoryFaults : State.reset.fault = none ∧
    ({ State.reset with pc := 4095 } : State).pc.toNat = 4095 ∧
    4096 ≤ ({ State.reset with pc := 4096 } : State).pc.toNat ∧
    4096 ≤ ({ State.reset with pc := 0xFFFF } : State).pc.toNat := by decide
theorem witness_InstructionRegister_completes : selfJump.fault = none ∧
    step selfJump = .next (stepOnce selfJump) ∧ (stepOnce selfJump).fault = none :=
  ⟨rfl, rfl, rfl⟩
theorem witness_InstructionRegister_faults : (step { State.reset with pc := 4095 } =
      .next (stepOnce { State.reset with pc := 4095 })) ∧
    (stepOnce { State.reset with pc := 4095 }).fault ≠ none := ⟨rfl, by decide⟩
theorem witness_HaltedCoreStaysHalted : halted.fault ≠ none ∧
    (Session.mk halted .running).apply .tick = some ⟨halted.tick, .running⟩ ∧
    (Session.mk halted .running).apply (.step 7) = some ⟨{ halted with rnd := some 7 }, .running⟩ := by decide
theorem witness_DecodeTakesTheMostSpecificRow : (⟨0x0000, 0xF000⟩ : OpcodeRow) ∈ opcodeMap ∧
    (⟨0x0000, 0xF000⟩ : OpcodeRow).selectedBy 0x00E0 = true := by decide
theorem witness_DecodeInvertsEncode : (Instr.drw 1 2 15).WellFormed ∧ (Instr.sys 0x0E1).WellFormed ∧
    (Instr.nop8 0x128).WellFormed ∧ (Instr.nope 0x09F).WellFormed ∧ (Instr.nopf 0x175).WellFormed := by decide
theorem witness_ReservedWordsAreNoOps :
    (fieldGroup 0x00EF = 0x0#4 ∧ fieldKk 0x00EF ∉ [0xE0#8, 0xEE#8]) ∧
    (fieldGroup 0x812F = 0x8#4 ∧ fieldN 0x812F ∈ [0x8#4, 0x9#4, 0xA#4, 0xB#4, 0xC#4, 0xD#4, 0xF#4]) ∧
    (fieldGroup 0xE0A0 = 0xE#4 ∧ fieldKk 0xE0A0 ∉ [0x9E#8, 0xA1#8]) ∧
    (fieldGroup 0xF175 = 0xF#4 ∧
      fieldKk 0xF175 ∉ [0x07#8, 0x0A#8, 0x15#8, 0x18#8, 0x1E#8, 0x29#8, 0x33#8, 0x55#8, 0x65#8]) ∧
    (withConfig .noop .index .store State.reset).cfg.op8xy0 = .noop := by decide
/-- A word for every `Selects` of the obligations. -/
theorem witness_Selects :
    (0x03EE#16 &&& 0xF0FF#16 = 0x00EE#16 ∧ 0x01E0#16 &&& 0xF0FF#16 = 0x00E0#16) ∧
    (0x1ABC#16 &&& 0xF000#16 = 0x1000#16 ∧ 0x2300#16 &&& 0xF000#16 = 0x2000#16 ∧
      0x332A#16 &&& 0xF000#16 = 0x3000#16 ∧ 0x432A#16 &&& 0xF000#16 = 0x4000#16 ∧
      0x5127#16 &&& 0xF000#16 = 0x5000#16 ∧ 0x912F#16 &&& 0xF000#16 = 0x9000#16 ∧
      0x6A7F#16 &&& 0xF000#16 = 0x6000#16 ∧ 0x7202#16 &&& 0xF000#16 = 0x7000#16 ∧
      0xA2F0#16 &&& 0xF000#16 = 0xA000#16 ∧ 0xB300#16 &&& 0xF000#16 = 0xB000#16 ∧
      0xC30F#16 &&& 0xF000#16 = 0xC000#16 ∧ 0xD12F#16 &&& 0xF000#16 = 0xD000#16) ∧
    (0x8120#16 &&& 0xF00F#16 = 0x8000#16 ∧ 0x8121#16 &&& 0xF00F#16 = 0x8001#16 ∧
      0x8122#16 &&& 0xF00F#16 = 0x8002#16 ∧ 0x8123#16 &&& 0xF00F#16 = 0x8003#16 ∧
      0x8124#16 &&& 0xF00F#16 = 0x8004#16 ∧ 0x8125#16 &&& 0xF00F#16 = 0x8005#16 ∧
      0x8126#16 &&& 0xF00F#16 = 0x8006#16 ∧ 0x8127#16 &&& 0xF00F#16 = 0x8007#16 ∧
      0x812E#16 &&& 0xF00F#16 = 0x800E#16) ∧
    (0xE59E#16 &&& 0xF0FF#16 = 0xE09E#16 ∧ 0xE5A1#16 &&& 0xF0FF#16 = 0xE0A1#16 ∧
      0xF407#16 &&& 0xF0FF#16 = 0xF007#16 ∧ 0xF30A#16 &&& 0xF0FF#16 = 0xF00A#16 ∧
      0xF415#16 &&& 0xF0FF#16 = 0xF015#16 ∧ 0xF418#16 &&& 0xF0FF#16 = 0xF018#16 ∧
      0xF41E#16 &&& 0xF0FF#16 = 0xF01E#16 ∧ 0xF229#16 &&& 0xF0FF#16 = 0xF029#16 ∧
      0xF033#16 &&& 0xF0FF#16 = 0xF033#16 ∧ 0xF255#16 &&& 0xF0FF#16 = 0xF055#16 ∧
      0xF265#16 &&& 0xF0FF#16 = 0xF065#16) := by decide
theorem witness_ReturnPopsTheStack :
    ({ State.reset with sp := 1 } : State).sp.toNat = (0 : Fin 16).val + 1 ∧
    ({ State.reset with sp := 16 } : State).sp.toNat = (15 : Fin 16).val + 1 ∧
    (State.reset.sp.toNat + 255) % 256 > 15 ∧
    (({ State.reset with sp := 17 } : State).sp.toNat + 255) % 256 > 15 := by decide
theorem witness_CallPushesTheReturnAddress : State.reset.sp.toNat = (0 : Fin 16).val ∧
    ({ State.reset with sp := 15 } : State).sp.toNat = (15 : Fin 16).val ∧
    ({ State.reset with sp := 16 } : State).sp.toNat > 15 := by decide
theorem witness_CallThenReturnComesBack : ({ State.reset with sp := 15 } : State).sp.toNat ≤ 15 := by decide
theorem witness_JumpOffset : State.reset.cfg.bnnnTarget = .index ∧
    (withConfig .move .pc .load State.reset).cfg.bnnnTarget = .pc := by decide
theorem witness_RegisterMove : State.reset.cfg.op8xy0 = .move ∧
    (withConfig .noop .index .store State.reset).cfg.op8xy0 = .noop := by decide
theorem witness_FlagAndRegister : (0xE : Nibble) ≠ 0xF#4 ∧ (0 : Nibble) ≠ 0xE#4 ∧ (0 : Nibble) ≠ 0xF#4 := by
  decide
theorem witness_RandomByteIsMasked : ({ State.reset with rnd := some 0xA7 } : State).rnd = some 0xA7 ∧
    State.reset.rnd = none := by decide
theorem witness_BcdStoresThreeDigits : ({ State.reset with I := 4093 } : State).I.toNat ≤ 4093 ∧
    ({ State.reset with I := 4094 } : State).I.toNat > 4093 ∧
    ({ State.reset with I := 0xFFFF } : State).I.toNat > 4093 := by decide
theorem witness_StoreRegisters : ({ State.reset with I := 4080 } : State).I.toNat + (15 : Nibble).toNat ≤ 4095 ∧
    ({ State.reset with I := 4081 } : State).I.toNat + (15 : Nibble).toNat > 4095 ∧
    ({ State.reset with I := 4096 } : State).I.toNat + (0 : Nibble).toNat > 4095 := by decide
theorem witness_LoadRegisters :
    (State.reset.cfg.fx65Direction = .store ∧ ({ State.reset with I := 4095 } : State).I.toNat + (0 : Nibble).toNat ≤ 4095) ∧
    (State.reset.cfg.fx65Direction = .store ∧ ({ State.reset with I := 4095 } : State).I.toNat + (1 : Nibble).toNat > 4095) ∧
    ((withConfig .move .index .load { State.reset with I := 4080 }).cfg.fx65Direction = .load ∧
      (withConfig .move .index .load { State.reset with I := 4080 }).I.toNat + (15 : Nibble).toNat ≤ 4095) ∧
    (withConfig .move .index .load { State.reset with I := 4081 }).I.toNat + (15 : Nibble).toNat > 4095 := by
  decide
theorem witness_StoreThenLoad : ({ State.reset with I := 4080 } : State).I.toNat + (15 : Nibble).toNat ≤ 4095 := by
  decide
theorem witness_StoredBytesAreFetched : 1 ≤ (1 : Nibble).toNat ∧
    ({ State.reset with I := 4094 } : State).I.toNat + (1 : Nibble).toNat ≤ 4095 ∧
    exec (.stRegs 1) { State.reset with I := 4094 } =
      .next (answer (exec (.stRegs 1) { State.reset with I := 4094 }) State.reset) := ⟨by decide, by decide, rfl⟩
theorem witness_DrawToggles : RowsInRange drawLast 1 2 (1 : Nibble).toNat := by
  unfold RowsInRange spriteSet cellOf; decide
theorem witness_DrawToggles_lit_cell : Toggles drawLast 1 2 1 2047 ∧
    ({ drawLast with fb := fbLit [2047] } : State).pixel 2047 = 0xFFFFFFFF#32 :=
  ⟨⟨0, 0, by decide, by decide, by unfold spriteSet; decide, by decide⟩, by decide⟩
theorem witness_DrawToggles_dark_and_untouched : drawLast.pixel 2047 ≠ 0xFFFFFFFF#32 ∧ ¬Toggles drawLast 1 2 0 0 :=
  ⟨by decide, fun ⟨_, _, h, _⟩ => absurd h (Nat.not_lt_zero _)⟩
theorem witness_DrawReports_memRead : 0 < (1 : Nibble).toNat ∧
    RowsInRange { State.reset with I := 4096 } 1 2 0 ∧ ({ State.reset with I := 4096 } : State).ea 0 > 4095 :=
  ⟨by decide, fun _ h => absurd h (Nat.not_lt_zero _), by decide⟩
/-- V44-9: row 1, column 0 addresses cell 2048. -/
theorem witness_DrawReports_fb : 1 < (2 : Nibble).toNat ∧
    RowsInRange { withRegs [(2, 31)] with I := 0x300, mem := [(0x300, 0x80), (0x301, 0x80)] } 1 2 1 ∧
    spriteSet { withRegs [(2, 31)] with I := 0x300, mem := [(0x300, 0x80), (0x301, 0x80)] } 1 0 ∧
    cellOf { withRegs [(2, 31)] with I := 0x300, mem := [(0x300, 0x80), (0x301, 0x80)] } 1 2 1 0 > 2047 := by
  refine ⟨by decide, ?_, by unfold spriteSet; decide, by decide⟩
  unfold RowsInRange spriteSet cellOf; decide
theorem witness_inv_drawLast : drawLast.Inv :=
  ⟨by decide, by decide, by decide, by decide, fun _ => by decide, fun _ i h => absurd h (Nat.not_lt_zero _)⟩
theorem witness_DrawingTwice : exec (.drw 1 2 1) drawLast = .next (answer (exec (.drw 1 2 1) drawLast) drawLast) ∧
    (answer (exec (.drw 1 2 1) drawLast) drawLast).reg 1 = drawLast.reg 1 ∧
    (answer (exec (.drw 1 2 1) drawLast) drawLast).reg 2 = drawLast.reg 2 ∧
    (Toggles drawLast 1 2 1 2047 ∧ drawLast.pixel 2047 = 0#32) :=
  ⟨rfl, by decide, by decide, witness_DrawToggles_lit_cell.1, by decide⟩
theorem witness_KeySkips : (withRegs [(5, 15)]).reg 5 = BitVec.ofNat 8 (15 : Fin 16).val ∧
    ((withRegs [(5, 16)]).reg 5).toNat > 15 := by decide
theorem witness_WaitForKey : (keysDown [15])[(15 : Fin 16)] = true ∧
    (∀ j : Fin 16, j < 15 → (keysDown [15])[j] = false) ∧ (∀ k : Fin 16, State.reset.keys[k] = false) := by decide
theorem witness_HostReads : (Session.mk State.reset .running).state.fault = none := rfl
theorem witness_LoadProgram : ([] : List Byte).length = 0 ∧ (List.replicate 3585 (1 : Byte)).length > 3584 ∧
    1 ≤ ([1] : List Byte).length ∧ (List.replicate 3584 (1 : Byte)).length ≤ 3584 ∧
    (([] : List Byte).length = 0 ∨ ([] : List Byte).length > 3584) := by
  simp only [List.length_replicate]; decide
theorem witness_BootOrder : 1 ≤ ([0x12, 0x00] : List Byte).length ∧ ([0x12, 0x00] : List Byte).length ≤ 3584 := by
  decide
theorem witness_BootComesFirst :
    (Session.mk selfJump (.boot true true)).apply (.step 5) =
      some ⟨answer (selfJump.stepEvent 5) selfJump, .running⟩ ∧
    (Session.mk selfJump .running).apply .tick = some ⟨selfJump.tick, .running⟩ ∧
    (Session.mk selfJump .running).apply .loadGlyphs = none ∧
    (Session.mk selfJump (.boot true false)).apply (.step 5) = none ∧
    (Session.mk selfJump (.boot true true)).apply (.loadProgram []) = some (Session.mk selfJump (.boot true true)) ∧
    (Session.mk selfJump (.boot true true)).apply (.loadProgram [1]) = none := ⟨rfl, rfl, rfl, rfl, rfl, rfl⟩
theorem witness_FaultsArePrecise : State.reset.fault = none ∧
    step (State.reset.placeWord 0x00EE) = .next (stepWord 0x00EE State.reset) ∧
    (stepWord 0x00EE State.reset).fault ≠ none := ⟨rfl, rfl, by decide⟩
theorem witness_OnlyTheListedRaise : exec (.ret 0) State.reset = .next (answer (exec (.ret 0) State.reset) halted) ∧
    (answer (exec (.ret 0) State.reset) halted).fault = some ⟨.stackUnderflow, 0x200, 255⟩ := ⟨rfl, by decide⟩
theorem witness_InvariantHoldsAtReset : ({ Config.default with resetPc := 4098 } : Config).resetPc.toNat ≤ 4098 := by
  decide
theorem witness_StepKeepsTheInvariant : drawLast.Inv ∧ step drawLast = .next (stepOnce drawLast) :=
  ⟨witness_inv_drawLast, rfl⟩
theorem witness_EveryReachableState : Config.default.resetPc.toNat ≤ 4098 ∧
    (Session.run [.loadProgram [0x12, 0x00], .tick] (Session.start Config.default)).isSome = true := by decide
theorem witness_Frames : exec (.stRegs 0) { State.reset with I := 0x300 } =
      .next (answer (exec (.stRegs 0) { State.reset with I := 0x300 }) State.reset) ∧
    ¬mayWriteReg Config.default 0 (.stRegs 0) ∧
    (∀ k, k < storedBytes Config.default (.stRegs 0) → 0x301 ≠ ({ State.reset with I := 0x300 } : State).ea k) := by
  refine ⟨rfl, fun h => h, fun k hk => ?_⟩
  have : k = 0 := Nat.lt_one_iff.1 hk
  subst this; decide
theorem witness_NextPc_faults : State.reset.fault = none ∧
    (answer (exec (.ret 0) State.reset) State.reset).fault ≠ none := by decide
theorem witness_SpecialState : (∀ a, Instr.jp 0 ≠ .cls a) ∧ (∀ x y n, Instr.jp 0 ≠ .drw x y n) ∧
    (∀ n, Instr.jp 0 ≠ .call n) ∧ (∀ a, Instr.jp 0 ≠ .ret a) ∧ (∀ n, Instr.jp 0 ≠ .ldI n) ∧
    (∀ x, Instr.jp 0 ≠ .addI x) ∧ (∀ x, Instr.jp 0 ≠ .ldF x) ∧ (∀ x, Instr.jp 0 ≠ .ldDtVx x) ∧
    (∀ x, Instr.jp 0 ≠ .ldStVx x) ∧ (∀ n, Instr.jp 0 = .jpV0 n → Config.default.bnnnTarget = .pc) :=
  ⟨nofun, nofun, nofun, nofun, nofun, nofun, nofun, nofun, nofun, nofun⟩
theorem witness_StepReadsNeither : step selfJump = .next (stepOnce selfJump) ∧
    step { selfJump with ir := 0xFFFF, st := 9 } = .next (stepOnce { selfJump with ir := 0xFFFF, st := 9 }) :=
  ⟨rfl, rfl⟩
theorem witness_OnlyRnd : (∀ x kk, Instr.jp 0 ≠ .rnd x kk) ∧
    exec (.jp 0) selfJump = .next (answer (exec (.jp 0) selfJump) selfJump) ∧
    exec (.jp 0) { selfJump with rnd := some 1, draws := 3 } =
      .next (answer (exec (.jp 0) { selfJump with rnd := some 1, draws := 3 }) selfJump) := ⟨nofun, rfl, rfl⟩
/-- The boundary of R226's premises: the last `pc` of a self-jump, and the first without one. -/
theorem witness_EndOfRun : (selfJump.cfg.endOfRun = .selfJump ∧ selfJump.fault = none ∧ selfJump.endOfRun = true) ∧
    ({ State.reset with pc := 4094, mem := [(4094, 0x1F), (4095, 0xFE)] } : State).endOfRun = true ∧
    ({ State.reset with pc := 4095, mem := [(4095, 0x1F)] } : State).endOfRun = false := by decide
/-- R226: a run that ends by waiting in Fx0A has its own `END_OF_RUN`, and a halted state is an end of none. -/
theorem test_end_of_run_parameter :
    let s : State := { State.reset with
      cfg := { Config.default with endOfRun := .both (.fetches 0xF0FF 0xF00A) (.neg (.holds (.V 3) 0)) } }
    ((s.placeWord 0xF30A).setReg 3 1).endOfRun = true ∧ (s.placeWord 0xF30A).endOfRun = false ∧
    (s.placeWord 0x1200).endOfRun = false ∧
    ({ (s.placeWord 0xF30A).setReg 3 1 with fault := halted.fault } : State).endOfRun = false := by decide
theorem witness_EveryEvent : (Session.mk drawLast .running).state.Inv ∧
    (Session.mk drawLast .running).state.cfg.resetPc.toNat ≤ 4098 ∧
    (Session.mk drawLast .running).apply (.step 5) = some ⟨answer (drawLast.stepEvent 5) drawLast, .running⟩ :=
  ⟨witness_inv_drawLast, by decide, rfl⟩
theorem witness_PlacedWord : 65535 < 65536 := by decide

end Sys2Proof.Tests
end

section
/-! PROOFS. Which registers an instruction leaves alone (10_state.md R22, 00_scope.md R18). -/

namespace Sys2Proof.Machine

/-! ### Registers that the flag write and the loops leave alone -/

/-- The flag and the result leave every register but VF and the destination alone (42_load_and_alu.md R113). -/
theorem State.reg_setFlagThenReg_ne (s : State) {x r : Nibble} (f b : Byte) (h : ¬(r = x ∨ r = flagReg)) :
    (s.setFlagThenReg x f b).reg r = s.reg r := by
  obtain ⟨hx, hf⟩ := not_or.1 h
  rw [State.reg_setFlagThenReg, if_neg hx, if_neg hf]

@[simp] theorem State.reg_skipIf (s : State) (c : Bool) (r : Nibble) : (s.skipIf c).reg r = s.reg r := by
  rw [State.skipIf_eq]; rfl

theorem stackWrite_reg {s u : State} {k : Nat} {v : Word} (h : stackWrite s k v = .ok u) (r : Nibble) :
    u.reg r = s.reg r := by
  obtain ⟨_, rfl⟩ := stackWrite_ok_iff.1 h
  rfl

theorem storeLoop_reg {n : Nat} {b : Nat → State → Byte} {t u : State} (h : storeLoop n b t = .ok u)
    (r : Nibble) : u.reg r = t.reg r := by
  rw [(storeLoop_frame h).1]; rfl

/-- A load of registers `0 .. n - 1` leaves the registers from `n` on alone (43_index_and_memory.md R135). -/
theorem loadLoop_reg {n : Nat} {t u : State} {r : Nibble} (h : loadLoop n t = .ok u) (hr : n ≤ r.toNat) :
    u.reg r = t.reg r := by
  refine forUpTo_ok_invariant (fun _ v => v.reg r = t.reg r) rfl ?_ h
  intro k v w hk hv hw
  have hne : r ≠ runningReg k := by
    rintro rfl
    rw [runningReg_toNat (by omega)] at hr
    omega
  split at hw
  · cases hw
    exact (State.reg_setReg_ne v _ hne).trans hv
  · cases hw

/-! ### Registers that a step leaves alone -/

/-- A step leaves a register alone if its pseudocode, where it completes, does: a fault undoes all writes
(60_exceptions.md R182). -/
theorem complete_reg {i : Instr} {body : State → Except Raise State} {s t : State} {r : Nibble}
    (hb : ∀ u, body (s.fetched (encode i)) = .ok u → u.reg r = (s.fetched (encode i)).reg r)
    (h : complete i body s = .next t) :
    t.reg r = s.reg r := by
  rcases complete_next_iff.1 h with h | ⟨e, -, rfl⟩
  · exact hb t h
  · rfl

/-- The same for pseudocode that raises nothing. -/
theorem complete_total_reg {i : Instr} {f : State → State} {s t : State} {r : Nibble}
    (hf : ∀ u, (f u).reg r = u.reg r) (h : complete i (fun u => .ok (f u)) s = .next t) :
    t.reg r = s.reg r :=
  complete_reg (fun _ hu => Except.ok.inj hu ▸ hf _) h

theorem execLdReg_reg {x y r : Nibble} {s t : State} (h : execLdReg x y s = .next t)
    (hr : ¬(r = x ∧ s.cfg.op8xy0 = .move)) : t.reg r = s.reg r := by
  refine complete_reg (fun u hu => ?_) h
  rw [State.fetched_cfg] at hu
  cases hc : s.cfg.op8xy0 with
  | move =>
    rw [hc] at hu
    cases hu
    exact State.reg_setReg_ne _ _ fun hx => hr ⟨hx, hc⟩
  | noop =>
    rw [hc] at hu
    cases hu
    rfl

theorem execCall_reg {nnn : Imm12} {r : Nibble} {s t : State} (h : execCall nnn s = .next t) :
    t.reg r = s.reg r := by
  refine complete_reg (fun u hu => ?_) h
  split at hu
  · next v hv => cases hu; exact stackWrite_reg hv r
  · cases hu

theorem execLdVxK_reg {x r : Nibble} {s t : State} (h : execLdVxK x s = .next t) (hr : r ≠ x) :
    t.reg r = s.reg r := by
  refine complete_reg (fun u hu => ?_) h
  split at hu
  · cases hu; exact State.reg_setReg_ne _ _ hr
  · cases hu; rfl

theorem execDrw_reg {x y n r : Nibble} {s t : State} (h : execDrw x y n s = .next t) (hr : r ≠ flagReg) :
    t.reg r = s.reg r := by
  refine complete_reg (fun u hu => ?_) h
  obtain ⟨-, hreg, -⟩ := drawRows_keeps hu
  exact (hreg r hr).trans (State.reg_setReg_ne _ 0#8 hr)

theorem execLdRegs_reg {x r : Nibble} {s t : State} (h : execLdRegs x s = .next t)
    (hr : ¬(r.toNat ≤ x.toNat ∧ s.cfg.fx65Direction = .load)) : t.reg r = s.reg r := by
  refine complete_reg (fun u hu => ?_) h
  cases hc : s.cfg.fx65Direction with
  | store =>
    simp only [State.fetched_cfg, hc] at hu
    exact storeLoop_reg hu r
  | load =>
    simp only [State.fetched_cfg, hc] at hu
    have hlt : x.toNat + 1 ≤ r.toNat := Nat.lt_of_not_le fun hle => hr ⟨hle, hc⟩
    exact loadLoop_reg hu hlt

/-- Settles O53: instruction by instruction, a register that is no destination is left alone by the one write
of a plain form, by the flag write before it, and by the loop of a memory or display form. -/
theorem registersChangeOnlyWhereWritten : Obligations.RegistersChangeOnlyWhereWritten := by
  intro i s t r h hr
  cases i <;> dsimp only [exec] at h
  case ldImm x _ | addImm x _ | orReg x _ | andReg x _ | xorReg x _ | rnd x _ | ldVxDt x =>
    exact complete_total_reg (fun u => u.reg_setReg_ne _ hr) h
  case addReg x _ | subReg x _ | subnReg x _ | shr x _ | shl x _ =>
    exact complete_total_reg (fun u => u.reg_setFlagThenReg_ne _ _ hr) h
  case seImm | sneImm | seReg | sneReg => exact complete_total_reg (fun u => u.reg_skipIf _ r) h
  case cls | sys | jp | ldI | addI | ldF | ldDtVx | ldStVx | nop8 | nope | nopf =>
    refine complete_total_reg (fun u => ?_) h
    rfl
  case ldB | stRegs => exact complete_reg (fun _ hu => storeLoop_reg hu r) h
  case ldReg => exact execLdReg_reg h hr
  case ret =>
    refine complete_reg (fun u hu => ?_) h
    split at hu
    · cases hu; rfl
    · cases hu
  case call => exact execCall_reg h
  case jpV0 =>
    refine complete_reg (fun u hu => ?_) h
    split at hu
    · cases hu; rfl
    · cases hu; rfl
  case skp | sknp =>
    refine complete_reg (fun u hu => ?_) h
    split at hu
    · cases hu; exact State.reg_skipIf _ _ r
    · cases hu
  case ldVxK => exact execLdVxK_reg h hr
  case drw => exact execDrw_reg h hr
  case ldRegs => exact execLdRegs_reg h hr

end Sys2Proof.Machine
end

section
/-! PROOFS. The step's random input (00_scope.md R11, 60_exceptions.md R201): pseudocode that ignores it, and the
steps made of such pseudocode. -/

namespace Sys2Proof.Machine

/-- `s` with another random input: the model's own fields `rnd` and `draws` (assumption log 3). -/
def State.withRandom (s : State) (r : Option Byte) (d : Nat) : State := { s with rnd := r, draws := d }

@[simp] theorem State.reg_withRandom (s : State) (r : Option Byte) (d : Nat) (x : Nibble) :
    (s.withRandom r d).reg x = s.reg x := rfl

@[simp] theorem State.ea_withRandom (s : State) (r : Option Byte) (d : Nat) (k : Nat) :
    (s.withRandom r d).ea k = s.ea k := rfl

@[simp] theorem State.withRandom_cfg (s : State) (r : Option Byte) (d : Nat) :
    (s.withRandom r d).cfg = s.cfg := rfl

@[simp] theorem State.withRandom_sp (s : State) (r : Option Byte) (d : Nat) :
    (s.withRandom r d).sp = s.sp := rfl

@[simp] theorem State.withRandom_keys (s : State) (r : Option Byte) (d : Nat) :
    (s.withRandom r d).keys = s.keys := rfl

@[simp] theorem State.withRandom_pc (s : State) (r : Option Byte) (d : Nat) :
    (s.withRandom r d).pc = s.pc := rfl

@[simp] theorem memRead_withRandom (s : State) (r : Option Byte) (d : Nat) (a : Nat) :
    memRead (s.withRandom r d) a = memRead s a := rfl

@[simp] theorem fbRead_withRandom (s : State) (r : Option Byte) (d : Nat) (i : Nat) :
    fbRead (s.withRandom r d) i = fbRead s i := rfl

@[simp] theorem keyRead_withRandom (s : State) (r : Option Byte) (d : Nat) (k : Nat) :
    keyRead (s.withRandom r d) k = keyRead s k := rfl

@[simp] theorem stackRead_withRandom (s : State) (r : Option Byte) (d : Nat) (k : Nat) :
    stackRead (s.withRandom r d) k = stackRead s k := rfl

theorem State.fetched_withRandom (s : State) (r : Option Byte) (d : Nat) (w : Word) :
    (s.withRandom r d).fetched w = (s.fetched w).withRandom none (d + 1) := rfl

theorem State.skipIf_withRandom (s : State) (r : Option Byte) (d : Nat) (c : Bool) :
    (s.withRandom r d).skipIf c = (s.skipIf c).withRandom r d := by
  rw [State.skipIf_eq, State.skipIf_eq]; rfl

/-- Pseudocode ignores the random input: from another one it raises the same, or completes in the same state but
for that input. -/
def IgnoresRandom (body : State → Except Raise State) : Prop :=
  ∀ (t : State) (r : Option Byte) (d : Nat), body (t.withRandom r d) = (body t).map (·.withRandom r d)

/-- A step whose pseudocode ignores the random input answers two states that differ there alone. -/
theorem IgnoresRandom.complete_eq {i : Instr} {body : State → Except Raise State} (hb : IgnoresRandom body)
    {s t t' : State} {r : Option Byte} {d : Nat} (h : complete i body s = .next t)
    (h' : complete i body (s.withRandom r d) = .next t') : t.withRandom none 0 = t'.withRandom none 0 := by
  have hbody := hb (s.fetched (encode i)) none (d + 1)
  unfold complete at h h'
  rw [State.fetched_withRandom, hbody] at h'
  cases hs : body (s.fetched (encode i)) with
  | ok u =>
    rw [hs] at h h'
    cases h; cases h'; rfl
  | error e =>
    rw [hs] at h h'
    cases h; cases h'; rfl

/-! ### Operations -/

theorem memWrite_ignoresRandom (addr : State → Nat) (v : State → Byte)
    (ha : ∀ t r d, addr (t.withRandom r d) = addr t) (hv : ∀ t r d, v (t.withRandom r d) = v t) :
    IgnoresRandom fun t => memWrite t (addr t) (v t) := by
  intro t r d
  simp only [ha, hv, memWrite]
  split <;> rfl

theorem stackWrite_ignoresRandom (k : Nat) (v : Word) : IgnoresRandom fun t => stackWrite t k v := by
  intro t r d
  simp only [stackWrite]
  split <;> rfl

theorem fbWrite_ignoresRandom (i : Nat) (p : Pixel) : IgnoresRandom fun t => fbWrite t i p := by
  intro t r d
  simp only [fbWrite]
  split <;> rfl

/-- A loop of rounds that ignore the random input ignores it. -/
theorem forUpTo_ignoresRandom {body : Nat → State → Except Raise State} (hb : ∀ k, IgnoresRandom (body k))
    (n : Nat) : IgnoresRandom (forUpTo n body) := by
  intro t r d
  induction n with
  | zero => rfl
  | succ n ih =>
    simp only [forUpTo, ih]
    cases forUpTo n body t with
    | ok u => exact hb n u r d
    | error e => rfl

theorem storeLoop_ignoresRandom {b : Nat → State → Byte} (hb : ∀ k t r d, b k (t.withRandom r d) = b k t)
    (n : Nat) : IgnoresRandom (storeLoop n b) :=
  forUpTo_ignoresRandom (fun k => memWrite_ignoresRandom (·.ea k) (b k) (fun _ _ _ => rfl) (hb k)) n

theorem loadLoop_ignoresRandom (n : Nat) : IgnoresRandom (loadLoop n) := by
  refine forUpTo_ignoresRandom (fun k t r d => ?_) n
  simp only [State.ea_withRandom, memRead_withRandom]
  cases memRead t (t.ea k) <;> rfl

theorem togglePixel_ignoresRandom (i : Nat) : IgnoresRandom (togglePixel i) := by
  intro t r d
  simp only [togglePixel, fbRead_withRandom]
  cases fbRead t i with
  | error e => rfl
  | ok old =>
    by_cases hon : old = pixelOn
    · simp only [hon, if_true]
      exact fbWrite_ignoresRandom i _ (t.setReg flagReg 1#8) r d
    · simp only [hon, if_false]
      exact fbWrite_ignoresRandom i _ t r d

theorem drawRow_ignoresRandom (b : Byte) (px py k : Nat) : IgnoresRandom (drawRow b px py k) := by
  refine forUpTo_ignoresRandom (fun c t r d => ?_) 8
  by_cases hbit : spriteBit b c = true
  · simp only [hbit, if_true]
    exact togglePixel_ignoresRandom _ t r d
  · simp only [hbit]
    rfl

theorem drawRows_ignoresRandom (n px py : Nat) : IgnoresRandom (drawRows n px py) := by
  refine forUpTo_ignoresRandom (fun k t r d => ?_) n
  simp only [State.ea_withRandom, memRead_withRandom]
  cases memRead t (t.ea k) with
  | ok b => exact drawRow_ignoresRandom b px py k t r d
  | error e => rfl

/-- Settles O57: the pseudocode of every instruction but RND ignores the random input, that of most by what its
one update writes, that of the others by their reads, writes and loops. -/
theorem onlyRndUsesTheRandomByte : Obligations.OnlyRndUsesTheRandomByte := by
  intro i s t t' r d hi h h'
  change exec i (s.withRandom r d) = _ at h'
  cases i <;> dsimp only [exec] at h h'
  case rnd x kk => exact absurd rfl (hi x kk)
  case ldB | stRegs =>
    exact (storeLoop_ignoresRandom (fun _ _ _ _ => rfl) _).complete_eq h h'
  case drw =>
    refine IgnoresRandom.complete_eq (fun u r d => ?_) h h'
    exact drawRows_ignoresRandom _ _ _ (u.setReg flagReg 0#8) r d
  case seImm | sneImm | seReg | sneReg =>
    refine IgnoresRandom.complete_eq (fun u r d => ?_) h h'
    exact congrArg Except.ok (u.skipIf_withRandom r d _)
  all_goals refine IgnoresRandom.complete_eq (fun u r d => ?_) h h'
  case cls | sys | jp | ldImm | addImm | orReg | andReg | xorReg | addReg | subReg | shr | subnReg | shl | ldI
      | ldVxDt | ldDtVx | ldStVx | addI | ldF | nop8 | nope | nopf => rfl
  case ldReg =>
    simp only [State.withRandom_cfg]
    cases u.cfg.op8xy0 <;> rfl
  case jpV0 =>
    simp only [State.withRandom_cfg]
    cases u.cfg.bnnnTarget <;> rfl
  case ret =>
    simp only [State.withRandom_sp, stackRead_withRandom]
    cases stackRead u (u.sp - 1#8).toNat <;> rfl
  case call =>
    simp only [State.withRandom_sp, State.withRandom_pc, stackWrite_ignoresRandom u.sp.toNat u.pc u r d]
    cases stackWrite u u.sp.toNat u.pc <;> rfl
  case skp x | sknp x =>
    simp only [State.reg_withRandom, keyRead_withRandom, State.skipIf_withRandom]
    cases keyRead u (u.reg x).toNat <;> rfl
  case ldVxK =>
    simp only [State.withRandom_keys]
    cases lowestDown u.keys.toList <;> rfl
  case ldRegs x =>
    simp only [State.withRandom_cfg]
    cases u.cfg.fx65Direction with
    | store => exact storeLoop_ignoresRandom (fun _ _ _ _ => rfl) _ u r d
    | load => exact loadLoop_ignoresRandom _ u r d

end Sys2Proof.Machine
end

section
/-! PROOFS. Decoding drops no bit of a word (30_encoding.md R66). -/

namespace Sys2Proof

theorem layoutNnn_of_group {w : Word} {g : Nibble} (hg : fieldGroup w = g) : layoutNnn g (fieldNnn w) = w :=
  hg ▸ layoutNnn_fields w

theorem layoutXKk_of_group {w : Word} {g : Nibble} {k : Byte} (hg : fieldGroup w = g) (hk : fieldKk w = k) :
    layoutXKk g (fieldX w) k = w := by
  subst hg hk; exact layoutXKk_fields w

theorem layoutXYN_of_group {w : Word} {g n : Nibble} (hg : fieldGroup w = g) (hn : fieldN w = n) :
    layoutXYN g (fieldX w) (fieldY w) n = w := by
  subst hg hn; exact layoutXYN_fields w

theorem encode_decodeGroup0 {w : Word} (hg : fieldGroup w = 0x0#4) : encode (decodeGroup0 w) = w := by
  unfold decodeGroup0
  split_ifs with h1 h2
  · exact layoutXKk_of_group hg h1
  · exact layoutXKk_of_group hg h2
  · exact layoutNnn_of_group hg

theorem encode_decodeGroup8 {w : Word} (hg : fieldGroup w = 0x8#4) : encode (decodeGroup8 w) = w := by
  unfold decodeGroup8
  split_ifs
  case neg => exact layoutNnn_of_group hg
  all_goals exact layoutXYN_of_group hg (by assumption)

theorem encode_decodeGroupE {w : Word} (hg : fieldGroup w = 0xE#4) : encode (decodeGroupE w) = w := by
  unfold decodeGroupE
  split_ifs with h1 h2
  · exact layoutXKk_of_group hg h1
  · exact layoutXKk_of_group hg h2
  · exact layoutNnn_of_group hg

theorem encode_decodeGroupF {w : Word} (hg : fieldGroup w = 0xF#4) : encode (decodeGroupF w) = w := by
  unfold decodeGroupF
  split_ifs
  case neg => exact layoutNnn_of_group hg
  all_goals exact layoutXKk_of_group hg (by assumption)

/-- The word of the instruction that a word selects is that word. -/
theorem encode_decodeWord (w : Word) : encode (decodeWord w) = w := by
  have group : ∀ {g : Nibble}, (fieldGroup w).toNat = g.toNat → fieldGroup w = g := BitVec.eq_of_toNat_eq
  unfold decodeWord
  split
  case h_1 h => exact encode_decodeGroup0 (group h)
  case h_2 h | h_3 h | h_11 h | h_12 h => exact layoutNnn_of_group (group h)
  case h_4 h | h_5 h | h_7 h | h_8 h | h_13 h => exact layoutXKk_of_group (group h) rfl
  case h_6 h | h_10 h | h_14 h => exact layoutXYN_of_group (group h) rfl
  case h_9 h => exact encode_decodeGroup8 (group h)
  case h_15 h => exact encode_decodeGroupE (group h)
  case h_16 =>
    refine encode_decodeGroupF (group ?_)
    have := (fieldGroup w).isLt
    simp only [imp_false] at *
    bv_omega

end Sys2Proof
end

section
/-! PROOFS. What a completed instruction does to every piece of state but the values it computes (10_state.md R37,
00_scope.md R18): one structure of facts, one case per form of the instruction set. -/

namespace Sys2Proof.Machine

open Sys2Proof.Claim

/-! ### Dark-or-lit framebuffers (10_state.md R38 (b)) -/

theorem Framebuffer.allLit_iff {f : Framebuffer} : f.allLit = true ↔ ∀ c ∈ f, c.2 = pixelOn := by
  simp [Framebuffer.allLit]

/-- An unlisted cell reads dark, a listed one lit. -/
theorem Framebuffer.read_of_allLit {f : Framebuffer} (h : f.allLit = true) (i : Nat) :
    f.read i = pixelOff ∨ f.read i = pixelOn := by
  rw [Framebuffer.allLit_iff] at h
  induction f with
  | nil => exact .inl rfl
  | cons c f ih =>
    unfold Framebuffer.read Sparse.read
    split
    · exact .inr (h c List.mem_cons_self)
    · exact ih fun e he => h e (List.mem_cons_of_mem c he)

theorem Framebuffer.allLit_write {f : Framebuffer} {p : Pixel} (i : Nat) (hp : p = pixelOff ∨ p = pixelOn)
    (h : f.allLit = true) : (f.write i p).allLit = true := by
  rw [Framebuffer.allLit_iff] at h ⊢
  intro c hc
  unfold Framebuffer.write Sparse.write at hc
  split at hc
  · exact h c (Sparse.mem_of_mem_erase hc)
  · next hoff =>
    rcases Sparse.mem_insert hc with rfl | hc
    · exact hp.resolve_left hoff
    · exact h c (Sparse.mem_of_mem_erase hc)

theorem togglePixel_allLit {i : Nat} {t u : State} (h : togglePixel i t = .ok u) (hl : t.fb.allLit = true) :
    u.fb.allLit = true := by
  obtain ⟨-, rfl⟩ := togglePixel_ok_iff.1 h
  refine Framebuffer.allLit_write i ?_ hl
  rcases Framebuffer.read_of_allLit hl i with hp | hp
  · exact .inr (by rw [State.pixel, hp]; decide)
  · exact .inl (by rw [State.pixel, hp]; decide)

theorem drawRow_allLit {b : Byte} {px py r : Nat} {t u : State} (h : drawRow b px py r t = .ok u)
    (hl : t.fb.allLit = true) : u.fb.allLit = true := by
  refine forUpTo_ok_invariant (fun _ u => u.fb.allLit = true) hl ?_ h
  intro c v w _ hv hw
  split at hw
  · exact togglePixel_allLit hw hv
  · cases hw; exact hv

/-- A draw keeps every cell dark or lit (44_display.md R152). -/
theorem drawRows_allLit {n px py : Nat} {t u : State} (h : drawRows n px py t = .ok u)
    (hl : t.fb.allLit = true) : u.fb.allLit = true := by
  refine forUpTo_ok_invariant (fun _ u => u.fb.allLit = true) hl ?_ h
  intro r v w _ hv hw
  split at hw
  · exact drawRow_allLit hw hv
  · cases hw

/-! ### The next `pc` (10_state.md R23) -/

/-- A skip in an instruction's pseudocode: `pc` alone, two bytes past the instruction where the condition holds
(40_step_cycle.md R83). -/
theorem State.skipIf_fetched (s : State) (w : Word) (c : Bool) :
    (s.fetched w).skipIf c = { s.fetched w with pc := if c then s.pc + 4#16 else s.pc + 2#16 } := by
  have h : s.pc + 2#16 + 2#16 = s.pc + 4#16 := by rw [BitVec.add_assoc]; rfl
  rw [State.skipIf_eq, State.fetched_pc, h]

theorem targetOf_eq_zeroExtend (nnn : Imm12) : targetOf nnn = nnn.zeroExtend 16 := by
  unfold targetOf; bv_omega

/-- A key number in range reads as the key array's flag. -/
theorem keyRead_eq_getD {s : State} {k : Nat} {b : Bool} (h : keyRead s k = .ok b) :
    s.keys.toList.getD k false = b := by
  obtain ⟨hk, rfl⟩ := keyRead_ok_iff.1 h
  simp [List.getD, hk]

theorem State.stack_getD {s : State} {k : Nat} (hk : k < 16) : s.stack.toList.getD k 0#16 = s.stack[k] := by
  simp [List.getD, hk]

/-- A stack index in range reads as the stack's entry. -/
theorem stackRead_eq_getD {s : State} {k : Nat} {v : Word} (h : stackRead s k = .ok v) :
    k < 16 ∧ v = s.stack.toList.getD k 0#16 := by
  obtain ⟨hk, rfl⟩ := stackRead_ok_iff.1 h
  exact ⟨hk, (State.stack_getD hk).symm⟩

/-- An entry is popped only by a stack pointer of 1 to 16 (41_control_flow.md R91). -/
theorem sp_of_pop {b : Byte} (h : (b - 1#8).toNat < 16) : 0 < b.toNat ∧ b.toNat ≤ 16 := by bv_omega

theorem lowestDown_eq_none_iff {ks : List Bool} : lowestDown ks = none ↔ true ∉ ks := by
  induction ks with
  | nil => simp [lowestDown]
  | cons k ks ih => cases k <;> simp [lowestDown, ih]

/-! ### The facts of a completed instruction -/

/-- What holds of the state `t` in which `i` has completed from `s`. Each field's default proof is that of a form
that writes nothing there and goes on at the next instruction, so that a form proves what it does write. -/
structure Completed (i : Instr) (s t : State) : Prop where
  cfg : t.cfg = s.cfg := by rfl
  keys : t.keys = s.keys := by rfl
  fault : t.fault = s.fault := by rfl
  ir : t.ir = encode i := by rfl
  pc : t.pc = nextPc s i := by rfl
  memWf : s.mem.wf = true → t.mem.wf = true := by exact id
  fbWf : s.fb.wf = true → t.fb.wf = true := by exact id
  fbLit : s.fb.allLit = true → t.fb.allLit = true := by exact id
  fb : (∀ a, i ≠ .cls a) → (∀ x y n, i ≠ .drw x y n) → t.fb = s.fb := by intros; rfl
  sp : (∀ a, i ≠ .ret a) → (∀ n, i ≠ .call n) → t.sp = s.sp := by intros; rfl
  stack : (∀ n, i ≠ .call n) → t.stack = s.stack := by intros; rfl
  pop : ∀ a, i = .ret a → 0 < s.sp.toNat ∧ s.sp.toNat ≤ 16 ∧ t.sp = s.sp - 1#8 := by nofun
  push : ∀ n, i = .call n → ∃ h : s.sp.toNat < 16,
    t.stack = s.stack.set s.sp.toNat (s.pc + 2#16) h ∧ t.sp = s.sp + 1#8 := by nofun
  I : (∀ n, i ≠ .ldI n) → (∀ x, i ≠ .addI x) → (∀ x, i ≠ .ldF x) →
    (∀ n, i = .jpV0 n → s.cfg.bnnnTarget = .pc) → t.I = s.I := by intros; rfl
  dt : (∀ x, i ≠ .ldDtVx x) → t.dt = s.dt := by intros; rfl
  st : (∀ x, i ≠ .ldStVx x) → t.st = s.st := by intros; rfl

/-- A step ends by a fault on the state before, or its pseudocode completes. -/
theorem complete_cases {i : Instr} {body : State → Except Raise State} {s t : State}
    (hb : ∀ u, body (s.fetched (encode i)) = .ok u → Completed i s u) (h : complete i body s = .next t) :
    (∃ r, t = s.takeFault r) ∨ Completed i s t := by
  rcases complete_next_iff.1 h with h | ⟨r, -, h⟩
  · exact .inr (hb t h)
  · exact .inl ⟨r, h⟩

theorem execRet_cases {ign : Nibble} {s t : State} (h : execRet ign s = .next t) :
    (∃ r, t = s.takeFault r) ∨ Completed (.ret ign) s t := by
  refine complete_cases (fun u hu => ?_) h
  split at hu
  · next v hv =>
    cases hu
    obtain ⟨hlt, hentry⟩ := stackRead_eq_getD hv
    obtain ⟨hpos, hle⟩ := sp_of_pop hlt
    exact { pc := hentry, sp := fun h => absurd rfl (h _), pop := fun _ _ => ⟨hpos, hle, rfl⟩ }
  · cases hu

theorem execCall_cases {nnn : Imm12} {s t : State} (h : execCall nnn s = .next t) :
    (∃ r, t = s.takeFault r) ∨ Completed (.call nnn) s t := by
  refine complete_cases (fun u hu => ?_) h
  split at hu
  · next v hv =>
    cases hu
    obtain ⟨hlt, rfl⟩ := stackWrite_ok_iff.1 hv
    exact {
      pc := targetOf_eq_zeroExtend _
      sp := fun _ h => absurd rfl (h _)
      stack := fun h => absurd rfl (h _)
      push := fun _ _ => ⟨hlt, rfl, rfl⟩ }
  · cases hu

theorem execJpV0_cases {nnn : Imm12} {s t : State} (h : execJpV0 nnn s = .next t) :
    (∃ r, t = s.takeFault r) ∨ Completed (.jpV0 nnn) s t := by
  refine complete_cases (fun u hu => ?_) h
  split at hu
  · next hb =>
    cases hu
    rw [State.fetched_cfg] at hb
    exact { pc := by simp [nextPc, hb], I := fun _ _ _ h => absurd (hb.symm.trans (h _ rfl)) nofun }
  · next hb =>
    cases hu
    rw [State.fetched_cfg] at hb
    exact { pc := by simp [nextPc, hb, offsetTarget] }

theorem execLdVxK_cases {x : Nibble} {s t : State} (h : execLdVxK x s = .next t) :
    (∃ r, t = s.takeFault r) ∨ Completed (.ldVxK x) s t := by
  refine complete_cases (fun u hu => ?_) h
  split at hu
  · next k hk =>
    cases hu
    have hdown : true ∈ s.keys.toList := by
      by_contra hn
      exact absurd (hk.symm.trans (lowestDown_eq_none_iff.2 hn)) nofun
    exact { pc := (if_pos hdown).symm }
  · next hk =>
    cases hu
    have hback : s.pc + 2#16 - 2#16 = s.pc := by bv_omega
    exact { pc := hback.trans (if_neg (lowestDown_eq_none_iff.1 hk)).symm }

theorem execLdRegs_cases {x : Nibble} {s t : State} (h : execLdRegs x s = .next t) :
    (∃ r, t = s.takeFault r) ∨ Completed (.ldRegs x) s t := by
  refine complete_cases (fun u hu => ?_) h
  split at hu
  · obtain ⟨hframe, hwf⟩ := storeLoop_frame hu
    rw [hframe]
    exact { memWf := hwf }
  · rw [loadLoop_frame hu]
    exact {}

/-- The two ends of an instruction: a fault on the state before, or the facts of a completed one. -/
theorem exec_cases {i : Instr} {s t : State} (h : exec i s = .next t) :
    (∃ r, t = s.takeFault r) ∨ Completed i s t := by
  cases i <;> dsimp only [exec] at h
  case ret => exact execRet_cases h
  case call => exact execCall_cases h
  case jpV0 => exact execJpV0_cases h
  case ldVxK => exact execLdVxK_cases h
  case ldRegs => exact execLdRegs_cases h
  all_goals refine complete_cases (fun u hu => ?_) h
  case sys | ldImm | addImm | orReg | andReg | xorReg | addReg | subReg | shr | subnReg | shl | rnd | ldVxDt | nop8
      | nope | nopf => cases hu; exact {}
  case cls => cases hu; exact { fbWf := fun _ => rfl, fbLit := fun _ => rfl, fb := fun h => absurd rfl (h _) }
  case ldI => cases hu; exact { I := fun h => absurd rfl (h _) }
  case addI => cases hu; exact { I := fun _ h => absurd rfl (h _) }
  case ldF => cases hu; exact { I := fun _ _ h => absurd rfl (h _) }
  case ldDtVx => cases hu; exact { dt := fun h => absurd rfl (h _) }
  case ldStVx => cases hu; exact { st := fun h => absurd rfl (h _) }
  case jp => cases hu; exact { pc := targetOf_eq_zeroExtend _ }
  case seImm | sneImm | seReg | sneReg =>
    cases hu
    rw [State.skipIf_fetched]
    exact { pc := by simp [nextPc] }
  case skp | sknp =>
    split at hu
    · next down hd =>
      cases hu
      rw [State.skipIf_fetched]
      have hk := keyRead_eq_getD hd
      exact { pc := by simp [nextPc, ← hk] }
    · cases hu
  case ldReg =>
    split at hu
    · cases hu; exact {}
    · cases hu; exact {}
  case drw =>
    obtain ⟨hframe, -, hwf⟩ := drawRows_keeps hu
    have hlit := drawRows_allLit hu
    rw [hframe]
    exact { fbWf := hwf, fbLit := hlit, fb := fun _ h => absurd rfl (h _ _ _) }
  case ldB | stRegs =>
    obtain ⟨hframe, hwf⟩ := storeLoop_frame hu
    rw [hframe]
    exact { memWf := hwf }

/-- Settles O52: a completed instruction has the table's `pc`, a fault leaves that of the state before. -/
theorem nextPcFollowsTheTable : Obligations.NextPcFollowsTheTable := by
  intro i s t hs h
  rcases exec_cases h with ⟨r, rfl⟩ | hc
  · exact ⟨nofun, fun _ => rfl⟩
  · exact ⟨fun _ => hc.pc, fun hf => absurd (hc.fault.trans hs) hf⟩

/-- Settles O55: the facts of a completed instruction; a fault writes the latch alone. -/
theorem specialStateChangesOnlyWhereWritten : Obligations.SpecialStateChangesOnlyWhereWritten := by
  intro i s t h
  rcases exec_cases h with ⟨r, rfl⟩ | hc
  · simp
  · exact ⟨hc.keys, hc.cfg, hc.fb, hc.sp, hc.stack, hc.I, hc.dt, hc.st⟩

/-- Settles O4: the instruction that a fetched word selects encodes to that word, so a completed step leaves the
word in `ir`; the two kinds of fault leave `ir`. -/
theorem instructionRegisterHoldsTheFetchedWord : Obligations.InstructionRegisterHoldsTheFetchedWord := by
  intro s t hs h
  rcases step_cases s with ⟨hf, -⟩ | ⟨-, r, -, hstep⟩ | ⟨-, w, hw, hstep⟩
  · exact absurd hs hf
  · cases hstep.symm.trans h
    exact ⟨nofun, fun _ => rfl⟩
  · rcases exec_cases (hstep.symm.trans h) with ⟨r, rfl⟩ | hc
    · exact ⟨nofun, fun _ => rfl⟩
    · obtain ⟨-, hbytes⟩ := fetch_ok_iff.1 hw
      have hir : t.ir = w := hc.ir.trans (encode_decodeWord w)
      exact ⟨fun _ => hir.trans hbytes, fun hf => absurd (hc.fault.trans hs) hf⟩

end Sys2Proof.Machine
end

section
/-! PROOFS. The invariant of 10_state.md R38: it holds at reset, and every step and every event of the host keeps
it. -/

namespace Sys2Proof.Machine

open Sys2Proof.Claim

/-! ### One step -/

/-- The `pc` of a completed instruction that could be fetched, when `BNNN_TARGET = index`: at most a skip past the
last word of memory. -/
theorem State.Inv.nextPc_le {s : State} (hs : s.Inv) (hb : s.cfg.bnnnTarget = .index) (hpc : s.pc.toNat ≤ 4094)
    {i : Instr} (hpop : ∀ a, i = .ret a → 0 < s.sp.toNat ∧ s.sp.toNat ≤ 16) : (nextPc s i).toNat ≤ 4098 := by
  have plain : (s.pc + 2#16).toNat ≤ 4098 := by bv_omega
  have skip : (s.pc + 4#16).toNat ≤ 4098 := by bv_omega
  cases i <;> dsimp only [nextPc]
  case jp nnn | call nnn =>
    have := nnn.isLt
    rw [BitVec.zeroExtend, BitVec.toNat_setWidth]
    omega
  case ret a =>
    obtain ⟨hpos, hle⟩ := hpop a rfl
    have hpred : (s.sp - 1#8).toNat = s.sp.toNat - 1 := by bv_omega
    have hlt : s.sp.toNat - 1 < 16 := by omega
    have hentry : s.stack[s.sp.toNat - 1].toNat ≤ 4096 :=
      hs.stackBound hb ⟨s.sp.toNat - 1, hlt⟩ (Nat.sub_one_lt_of_lt hpos)
    rw [hpred, State.stack_getD hlt]
    omega
  case seImm | sneImm | seReg | sneReg | skp | sknp =>
    split
    · exact skip
    · exact plain
  case jpV0 => rw [hb]; exact plain
  case ldVxK =>
    split
    · exact plain
    · omega
  all_goals exact plain

/-- The invariant says nothing of the keys, the timers, the latch and the random input. -/
theorem State.Inv.withOther {s : State} (hs : s.Inv) {keys : Vector Bool 16} {dt st : Byte}
    {fault : Option FaultRecord} {rnd : Option Byte} {draws : Nat} :
    ({ s with keys := keys, dt := dt, st := st, fault := fault, rnd := rnd, draws := draws } : State).Inv :=
  ⟨hs.memWf, hs.fbWf, hs.fbLit, hs.spBound, hs.pcBound, hs.stackBound⟩

theorem toNat_add_one_of_lt {b : Byte} (h : b.toNat < 16) : (b + 1#8).toNat = b.toNat + 1 := by bv_omega

/-- What the stack of a completed instruction is: popped, pushed to or as before. -/
theorem Completed.stack_cases {i : Instr} {s t : State} (hc : Completed i s t) :
    (s.sp.toNat = t.sp.toNat + 1 ∧ s.sp.toNat ≤ 16 ∧ t.stack = s.stack) ∨
    (∃ h : s.sp.toNat < 16, t.sp.toNat = s.sp.toNat + 1 ∧ t.stack = s.stack.set s.sp.toNat (s.pc + 2#16) h) ∨
    (t.sp = s.sp ∧ t.stack = s.stack) := by
  by_cases hret : ∃ a, i = .ret a
  · obtain ⟨a, rfl⟩ := hret
    obtain ⟨hpos, hle, hsp⟩ := hc.pop a rfl
    exact .inl ⟨by bv_omega, hle, hc.stack nofun⟩
  by_cases hcall : ∃ n, i = .call n
  · obtain ⟨n, rfl⟩ := hcall
    obtain ⟨hlt, hstack, hsp⟩ := hc.push n rfl
    exact .inr (.inl ⟨hlt, hsp ▸ toNat_add_one_of_lt hlt, hstack⟩)
  · have hret' := not_exists.1 hret
    have hcall' := not_exists.1 hcall
    exact .inr (.inr ⟨hc.sp hret' hcall', hc.stack hcall'⟩)

theorem Completed.sp_le {i : Instr} {s t : State} (hc : Completed i s t) (hs : s.sp.toNat ≤ 16) :
    t.sp.toNat ≤ 16 := by
  rcases hc.stack_cases with ⟨hsp, hle, -⟩ | ⟨hlt, hsp, -⟩ | ⟨hsp, -⟩
  · omega
  · omega
  · rwa [hsp]

/-- A push is the address after an instruction that could be fetched. -/
theorem Completed.stackBounded {i : Instr} {s t : State} (hc : Completed i s t) (hs : s.StackBounded)
    (hpc : s.pc.toNat ≤ 4094) : t.StackBounded := by
  intro k hk
  have hpush : (s.pc + 2#16).toNat ≤ 4096 := by bv_omega
  rcases hc.stack_cases with ⟨hsp, hle, hstack⟩ | ⟨hlt, hsp, hstack⟩ | ⟨hsp, hstack⟩
  · rw [hstack]
    exact hs k (by omega)
  · simp only [hstack, Fin.getElem_fin, Vector.getElem_set]
    split
    · exact hpush
    · exact hs k (by omega)
  · rw [hstack]
    exact hs k (hsp ▸ hk)

/-- An instruction that could be fetched keeps the invariant. -/
theorem Completed.inv {i : Instr} {s t : State} (hc : Completed i s t) (hs : s.Inv) (hpc : s.pc.toNat ≤ 4094) :
    t.Inv where
  memWf := hc.memWf hs.memWf
  fbWf := hc.fbWf hs.fbWf
  fbLit := hc.fbLit hs.fbLit
  spBound := hc.sp_le hs.spBound
  pcBound := by
    rw [hc.cfg, hc.pc]
    intro hb
    refine hs.nextPc_le hb hpc fun a ha => ?_
    obtain ⟨hpos, hle, -⟩ := hc.pop a ha
    exact ⟨hpos, hle⟩
  stackBound := by
    rw [hc.cfg]
    exact fun hb => hc.stackBounded (hs.stackBound hb) hpc

/-- Settles O50: a step is no change, a fault, or the completion of an instruction that could be fetched. -/
theorem stepKeepsTheInvariant : Obligations.StepKeepsTheInvariant := by
  intro s t hs h
  rcases step_cases s with ⟨-, hstep⟩ | ⟨-, r, -, hstep⟩ | ⟨-, w, hw, hstep⟩
  · cases hstep.symm.trans h
    exact hs
  · cases hstep.symm.trans h
    exact hs.withOther
  · rcases exec_cases (hstep.symm.trans h) with ⟨r, rfl⟩ | hc
    · exact hs.withOther
    · obtain ⟨hpc, -⟩ := fetch_ok_iff.1 hw
      exact hc.inv hs hpc

/-! ### Reset and the host's events -/

/-- Settles O49: reset storage is empty, `sp` is 0, and `pc` is the entry point. -/
theorem invariantHoldsAtReset : Obligations.InvariantHoldsAtReset := by
  have key : ∀ c : Config, c.resetPc.toNat ≤ 4098 → (State.resetWith c).Inv := fun c hc =>
    ⟨rfl, rfl, rfl, Nat.zero_le 16, fun _ => hc, fun _ _ hlt => absurd hlt (Nat.not_lt_zero _)⟩
  exact ⟨key Config.default (by decide), key⟩

theorem State.Inv.resetEvent {s : State} (hpc : s.cfg.resetPc.toNat ≤ 4098) : s.resetEvent.Inv := by
  obtain ⟨-, key⟩ := invariantHoldsAtReset
  exact (key s.cfg hpc).withOther

/-- A load keeps the invariant if its bytes are inside memory. -/
theorem State.Inv.writeBlock {s : State} (hs : s.Inv) {a : Nat} {bytes : List Byte}
    (ha : a + bytes.length ≤ 4096) : ({ s with mem := s.mem.writeBlock a bytes } : State).Inv :=
  ⟨Memory.wf_writeBlock a bytes ha hs.memWf, hs.fbWf, hs.fbLit, hs.spBound, hs.pcBound, hs.stackBound⟩

/-- Settles O60: a load's bytes are inside memory, a step is O50's, and the other events write nothing that the
invariant speaks of. -/
theorem everyEventKeepsTheInvariant : Obligations.EveryEventKeepsTheInvariant := by
  intro z z' e hs hreset h
  rcases Session.apply_state h with
    heq | heq | heq | ⟨bytes, hload⟩ | ⟨rnd, hstep⟩ | ⟨k, heq⟩ | heq
  · rwa [heq]
  · rw [heq]
    exact .resetEvent hreset
  · rw [heq]
    exact hs.writeBlock (by rw [Vector.length_toList]; decide)
  · obtain ⟨⟨-, hlen⟩, heq⟩ := State.loadProgram_ok_iff.1 hload
    have hfits : progBase + bytes.length ≤ 4096 := by simp only [progBase, progMax] at hlen ⊢; omega
    rw [heq]
    exact hs.writeBlock hfits
  · exact stepKeepsTheInvariant { z.state with rnd := some rnd } z'.state hs.withOther hstep
  · rw [heq]
    exact hs.withOther
  · rw [heq]
    exact hs.withOther

theorem step_cfg {s t : State} (h : step s = .next t) : t.cfg = s.cfg := by
  rcases step_cases s with ⟨-, hstep⟩ | ⟨-, r, -, hstep⟩ | ⟨-, w, -, hstep⟩
  · cases hstep.symm.trans h; rfl
  · cases hstep.symm.trans h; rfl
  · obtain ⟨-, hcfg, -⟩ := specialStateChangesOnlyWhereWritten _ s t (hstep.symm.trans h)
    exact hcfg

/-- No event changes the configuration (00_scope.md R8). -/
theorem Session.apply_cfg {z z' : Session} {e : Event} (h : z.apply e = some z') : z'.state.cfg = z.state.cfg := by
  rcases Session.apply_state h with
    heq | heq | heq | ⟨bytes, hload⟩ | ⟨rnd, hstep⟩ | ⟨k, heq⟩ | heq
  · rw [heq]
  · rw [heq]; rfl
  · rw [heq]; rfl
  · rw [(State.loadProgram_ok_iff.1 hload).2]
  · exact (step_cfg hstep :)
  · rw [heq]; rfl
  · rw [heq]; rfl

/-- Any sequence of events keeps the invariant, with the premise on the entry point that a reset needs. -/
theorem Session.run_inv {es : List Event} {z z' : Session} (hs : z.state.Inv)
    (hreset : z.state.cfg.resetPc.toNat ≤ 4098) (h : z.run es = some z') : z'.state.Inv := by
  induction es generalizing z with
  | nil => cases h; exact hs
  | cons e es ih =>
    unfold Session.run at h
    split at h
    · next y hy =>
      have hcfg := Session.apply_cfg hy
      exact ih (everyEventKeepsTheInvariant z y e hs hreset hy) (hcfg ▸ hreset) h
    · cases h

/-- Settles O51: the invariant holds at reset and every event keeps it. -/
theorem everyReachableStateHasTheInvariant : Obligations.EveryReachableStateHasTheInvariant := by
  intro c es z hreset h
  obtain ⟨-, hstart⟩ := invariantHoldsAtReset
  exact Session.run_inv (z := Session.start c) (hstart c hreset) hreset h

end Sys2Proof.Machine
end

section
/-! PROOFS. The state right after reset (10_state.md R36, 70_reset_and_hazards.md R210). -/

namespace Sys2Proof.Machine

theorem State.byte_resetWith (c : Config) (a : Nat) : (State.resetWith c).byte a = 0#8 := rfl

theorem State.pixel_resetWith (c : Config) (i : Nat) : (State.resetWith c).pixel i = pixelOff := rfl

theorem State.reg_resetWith (c : Config) (x : Nibble) : (State.resetWith c).reg x = 0#8 :=
  Vector.getElem_replicate x.isLt

/-- Settles O1: storage reads as its default, an array as the value it is filled with, and every other piece of
state is written out in `State.resetWith`. -/
theorem resetGivesTheSpecifiedValues : Obligations.ResetGivesTheSpecifiedValues := by
  refine ⟨fun c => ⟨State.byte_resetWith c, State.reg_resetWith c, State.pixel_resetWith c, ?_, ?_, ?_⟩, rfl, rfl,
    fun _ => rfl⟩
  · exact fun i => Vector.getElem_replicate i.isLt
  · exact fun k => Vector.getElem_replicate k.isLt
  · exact ⟨rfl, rfl, rfl, rfl, rfl, rfl, rfl⟩

end Sys2Proof.Machine
end

section
/-! PROOFS. No step reads `ir` or the sound timer (10_state.md R28, R29). Fetching overwrites `ir`, so what is left
of a difference in the two is one in the sound timer, and every instruction's pseudocode but Fx18's, which overwrites
it, carries that difference along: it commutes with `State.setSt`. -/

namespace Sys2Proof.Machine

/-- `f` before pseudocode does what `f` after it does. -/
def CommutesWith (f : State → State) (body : State → Except Raise State) : Prop :=
  ∀ t, body (f t) = (body t).map f

/-! ### Operations -/

@[simp] theorem memRead_setSt (t : State) (b : Byte) (a : Nat) : memRead (t.setSt b) a = memRead t a := rfl

@[simp] theorem fbRead_setSt (t : State) (b : Byte) (i : Nat) : fbRead (t.setSt b) i = fbRead t i := rfl

@[simp] theorem keyRead_setSt (t : State) (b : Byte) (k : Nat) : keyRead (t.setSt b) k = keyRead t k := rfl

@[simp] theorem stackRead_setSt (t : State) (b : Byte) (k : Nat) : stackRead (t.setSt b) k = stackRead t k := rfl

theorem memWrite_setSt (t : State) (b : Byte) (a : Nat) (v : Byte) :
    memWrite (t.setSt b) a v = (memWrite t a v).map (·.setSt b) := by
  unfold memWrite; split <;> rfl

theorem fbWrite_setSt (t : State) (b : Byte) (i : Nat) (p : Pixel) :
    fbWrite (t.setSt b) i p = (fbWrite t i p).map (·.setSt b) := by
  unfold fbWrite; split <;> rfl

theorem stackWrite_setSt (t : State) (b : Byte) (k : Nat) (v : Word) :
    stackWrite (t.setSt b) k v = (stackWrite t k v).map (·.setSt b) := by
  unfold stackWrite; split <;> rfl

theorem State.skipIf_setSt (t : State) (b : Byte) (c : Bool) : (t.setSt b).skipIf c = (t.skipIf c).setSt b := by
  rw [State.skipIf_eq, State.skipIf_eq]; rfl

/-! ### Loops -/

/-- A loop of rounds that commute with `f` commutes with it. -/
theorem forUpTo_commutesWith {f : State → State} {body : Nat → State → Except Raise State}
    (hb : ∀ k, CommutesWith f (body k)) (n : Nat) : CommutesWith f (forUpTo n body) := by
  intro t
  induction n with
  | zero => rfl
  | succ n ih =>
    simp only [forUpTo, ih]
    cases forUpTo n body t with
    | ok u => exact hb n u
    | error r => rfl

section
variable (b : Byte)

theorem storeLoop_commutesWith_setSt {v : Nat → State → Byte} (hv : ∀ k t, v k (t.setSt b) = v k t) (n : Nat) :
    CommutesWith (·.setSt b) (storeLoop n v) := by
  refine forUpTo_commutesWith (fun k t => ?_) n
  rw [State.ea_setSt, hv, memWrite_setSt]

theorem loadLoop_commutesWith_setSt (n : Nat) : CommutesWith (·.setSt b) (loadLoop n) := by
  refine forUpTo_commutesWith (fun k t => ?_) n
  simp only [State.ea_setSt, memRead_setSt]
  cases memRead t (t.ea k) <;> rfl

theorem togglePixel_commutesWith_setSt (i : Nat) : CommutesWith (·.setSt b) (togglePixel i) := by
  intro t
  simp only [togglePixel, fbRead_setSt]
  cases fbRead t i with
  | error r => rfl
  | ok old =>
    dsimp only
    split
    · exact fbWrite_setSt (t.setReg flagReg 1#8) b i _
    · exact fbWrite_setSt t b i _

theorem drawRow_commutesWith_setSt (c : Byte) (px py r : Nat) : CommutesWith (·.setSt b) (drawRow c px py r) := by
  refine forUpTo_commutesWith (fun k t => ?_) 8
  split
  · exact togglePixel_commutesWith_setSt b _ t
  · rfl

theorem drawRows_commutesWith_setSt (n px py : Nat) : CommutesWith (·.setSt b) (drawRows n px py) := by
  refine forUpTo_commutesWith (fun k t => ?_) n
  simp only [State.ea_setSt, memRead_setSt]
  cases memRead t (t.ea k) with
  | ok c => exact drawRow_commutesWith_setSt b c px py k t
  | error r => rfl

end

/-! ### Steps -/

/-- `s` with another instruction register and sound timer. -/
def State.withIrSt (s : State) (w : Word) (b : Byte) : State := { s with ir := w, st := b }

/-- A step of pseudocode that commutes with a write of the sound timer answers, from states that differ in `ir`
and the sound timer alone, states that differ there alone. -/
theorem CommutesWith.complete_withIrSt {i : Instr} {body : State → Except Raise State} {b : Byte}
    (hb : CommutesWith (·.setSt b) body) {s t t' : State} {w : Word} (h : complete i body s = .next t)
    (h' : complete i body (s.withIrSt w b) = .next t') : t.withIrSt 0 0 = t'.withIrSt 0 0 := by
  have hfetched : (s.withIrSt w b).fetched (encode i) = (s.fetched (encode i)).setSt b := rfl
  have hbody := hb (s.fetched (encode i))
  unfold complete at h h'
  rw [hfetched, hbody] at h'
  cases hs : body (s.fetched (encode i)) with
  | ok u =>
    rw [hs] at h h'
    cases h; cases h'; rfl
  | error r =>
    rw [hs] at h h'
    cases h; cases h'; rfl

theorem exec_withIrSt {i : Instr} {s t t' : State} {w : Word} {b : Byte} (h : exec i s = .next t)
    (h' : exec i (s.withIrSt w b) = .next t') : t.withIrSt 0 0 = t'.withIrSt 0 0 := by
  cases i <;> dsimp only [exec] at h h'
  case ldStVx => cases h; cases h'; rfl
  case ldB | stRegs => exact (storeLoop_commutesWith_setSt b (fun _ _ => rfl) _).complete_withIrSt h h'
  all_goals refine CommutesWith.complete_withIrSt (fun u => ?_) h h'
  case cls | sys | jp | ldImm | addImm | orReg | andReg | xorReg | addReg | subReg | shr | subnReg | shl | ldI | rnd
      | ldVxDt | ldDtVx | addI | ldF | nop8 | nope | nopf => rfl
  case seImm | sneImm | seReg | sneReg => exact congrArg Except.ok (u.skipIf_setSt b _)
  case drw => exact drawRows_commutesWith_setSt b _ _ _ (u.setReg flagReg 0#8)
  case ldReg =>
    simp only [State.setSt_cfg]
    cases u.cfg.op8xy0 <;> rfl
  case jpV0 =>
    simp only [State.setSt_cfg]
    cases u.cfg.bnnnTarget <;> rfl
  case ret =>
    simp only [State.setSt_sp, stackRead_setSt]
    cases stackRead u (u.sp - 1#8).toNat <;> rfl
  case call =>
    simp only [State.setSt_sp, State.setSt_pc, stackWrite_setSt]
    cases stackWrite u u.sp.toNat u.pc <;> rfl
  case skp x | sknp x =>
    simp only [State.reg_setSt, keyRead_setSt, State.skipIf_setSt]
    cases keyRead u (u.reg x).toNat <;> rfl
  case ldVxK =>
    simp only [State.setSt_keys]
    cases lowestDown u.keys.toList <;> rfl
  case ldRegs =>
    simp only [State.setSt_cfg]
    cases u.cfg.fx65Direction with
    | store => exact storeLoop_commutesWith_setSt b (fun _ _ => rfl) _ u
    | load => exact loadLoop_commutesWith_setSt b _ u

/-- Settles O56: neither the halt nor the fetch reads `ir` or the sound timer, and no instruction does. -/
theorem stepReadsNeitherIrNorTheSoundTimer : Obligations.StepReadsNeitherIrNorTheSoundTimer := by
  intro s t t' w b h h'
  change step (s.withIrSt w b) = _ at h'
  change t.withIrSt 0 0 = t'.withIrSt 0 0
  have hfault : (s.withIrSt w b).fault = s.fault := rfl
  have hfetch : fetch (s.withIrSt w b) = fetch s := rfl
  unfold step at h h'
  rw [hfault, hfetch] at h'
  cases hf : s.fault with
  | some f =>
    rw [hf] at h h'
    cases h; cases h'; rfl
  | none =>
    rw [hf] at h h'
    cases hw : fetch s with
    | ok v =>
      rw [hw] at h h'
      exact exec_withIrSt h h'
    | error r =>
      rw [hw] at h h'
      cases h; cases h'; rfl

end Sys2Proof.Machine
end

section
/-! PROOFS. What Fx55 stores (43_index_and_memory.md R134), and the fetch of two stored bytes as one word
(20_memory.md R43, R53). -/

namespace Sys2Proof.Machine

/-- Fx55 of a block inside memory leaves `V[k]` at `I + k`, for every `k` of the block. -/
theorem execStRegs_byte {x : Nibble} {s t : State} {k : Nat} (hI : s.I.toNat + x.toNat ≤ 4095)
    (hk : k ≤ x.toNat) (h : execStRegs x s = .next t) : t.byte (s.ea k) = s.reg (runningReg k) := by
  obtain ⟨u, hu, -, hbyte⟩ := storeLoop_ok (n := x.toNat + 1) (b := fun k u => u.reg (runningReg k))
    (t := s.fetched (encode (.stRegs x))) (fun _ _ => rfl) (by rw [State.fetched_I]; omega)
  obtain rfl : u = t := Host.Outcome.next.inj ((complete_of_ok hu).symm.trans h)
  have hin : s.I.toNat ≤ s.ea k ∧ s.ea k < s.I.toNat + (x.toNat + 1) := by unfold State.ea; omega
  have hoff : s.ea k - s.I.toNat = k := Nat.add_sub_cancel_left _ _
  rw [hbyte, State.fetched_I, if_pos hin, hoff, State.reg_fetched]

/-- Settles O32: a fetch at the old `I` reads the bytes at `I` and `I + 1`, which Fx55 made `V[0]` and `V[1]`. -/
theorem storedBytesAreFetched : Obligations.StoredBytesAreFetched := by
  intro s t x hx hI h
  have hhigh : t.byte (s.ea 0) = s.reg 0#4 := execStRegs_byte hI (Nat.zero_le _) h
  have hlow : t.byte (s.ea 1) = s.reg 1#4 := execStRegs_byte hI hx h
  have hpc : s.I.toNat ≤ 4094 := by omega
  rw [← hhigh, ← hlow]
  exact fetch_ok_iff.2 ⟨hpc, rfl⟩

end Sys2Proof.Machine
end

section
/-! PROOFS. The decoder and the encoder are inverse to each other (30_encoding.md R61, R66, R68). -/

namespace Sys2Proof

/-! ### The groups that dispatch a second time (R63, R64) -/

theorem decodeWord_of_group0 {w : Word} (hg : fieldGroup w = 0x0#4) : decodeWord w = decodeGroup0 w := by
  unfold decodeWord; rw [hg]; rfl

theorem decodeWord_of_group8 {w : Word} (hg : fieldGroup w = 0x8#4) : decodeWord w = decodeGroup8 w := by
  unfold decodeWord; rw [hg]; rfl

theorem decodeWord_of_groupE {w : Word} (hg : fieldGroup w = 0xE#4) : decodeWord w = decodeGroupE w := by
  unfold decodeWord; rw [hg]; rfl

theorem decodeWord_of_groupF {w : Word} (hg : fieldGroup w = 0xF#4) : decodeWord w = decodeGroupF w := by
  unfold decodeWord; rw [hg]; rfl

/-! ### The fallback rows: a term is well formed when its sub-opcode has no row of its own -/

theorem wellFormed_sys_iff {a : Imm12} : (Instr.sys a).WellFormed ↔ lowByteOf a ∉ group0Ops := by
  simp [Instr.WellFormed, Instr.wellFormed]

theorem wellFormed_nop8_iff {a : Imm12} : (Instr.nop8 a).WellFormed ↔ lowNibbleOf a ∉ group8Ops := by
  simp [Instr.WellFormed, Instr.wellFormed]

theorem wellFormed_nope_iff {a : Imm12} : (Instr.nope a).WellFormed ↔ lowByteOf a ∉ groupEOps := by
  simp [Instr.WellFormed, Instr.wellFormed]

theorem wellFormed_nopf_iff {a : Imm12} : (Instr.nopf a).WellFormed ↔ lowByteOf a ∉ groupFOps := by
  simp [Instr.WellFormed, Instr.wellFormed]

theorem decodeGroup0_of_notMem {w : Word} (h : fieldKk w ∉ group0Ops) : decodeGroup0 w = .sys (fieldNnn w) := by
  unfold decodeGroup0
  iterate 2 rw [if_neg fun hop => h (by simp [hop, group0Ops])]

theorem decodeGroup8_of_notMem {w : Word} (h : fieldN w ∉ group8Ops) : decodeGroup8 w = .nop8 (fieldNnn w) := by
  unfold decodeGroup8
  iterate 9 rw [if_neg fun hop => h (by simp [hop, group8Ops])]

theorem decodeGroupE_of_notMem {w : Word} (h : fieldKk w ∉ groupEOps) : decodeGroupE w = .nope (fieldNnn w) := by
  unfold decodeGroupE
  iterate 2 rw [if_neg fun hop => h (by simp [hop, groupEOps])]

theorem decodeGroupF_of_notMem {w : Word} (h : fieldKk w ∉ groupFOps) : decodeGroupF w = .nopf (fieldNnn w) := by
  unfold decodeGroupF
  iterate 9 rw [if_neg fun hop => h (by simp [hop, groupFOps])]

/-! ### Decoding an encoded instruction -/

/-- Only a term of a fallback row needs its well-formedness: the word of any other is selected by its own row. -/
theorem decodeWord_encode {i : Instr} (h : i.WellFormed) : decodeWord (encode i) = i := by
  cases i
  case sys a =>
    rw [wellFormed_sys_iff] at h
    simp [encode, decodeWord_of_group0, decodeGroup0_of_notMem, h]
  case nop8 a =>
    rw [wellFormed_nop8_iff] at h
    simp [encode, decodeWord_of_group8, decodeGroup8_of_notMem, h]
  case nope a =>
    rw [wellFormed_nope_iff] at h
    simp [encode, decodeWord_of_groupE, decodeGroupE_of_notMem, h]
  case nopf a =>
    rw [wellFormed_nopf_iff] at h
    simp [encode, decodeWord_of_groupF, decodeGroupF_of_notMem, h]
  case cls | ret => simp [encode, decodeWord_of_group0, decodeGroup0]
  case ldReg | orReg | andReg | xorReg | addReg | subReg | shr | subnReg | shl =>
    simp [encode, decodeWord_of_group8, decodeGroup8]
  case skp | sknp => simp [encode, decodeWord_of_groupE, decodeGroupE]
  case ldVxDt | ldVxK | ldDtVx | ldStVx | addI | ldF | ldB | stRegs | ldRegs =>
    simp [encode, decodeWord_of_groupF, decodeGroupF]
  case jp | call | seImm | sneImm | seReg | ldImm | addImm | sneReg | ldI | jpV0 | rnd | drw =>
    simp [encode, decodeWord]

theorem decode_encodeBytes_append (i : Instr) (rest : List Byte) :
    decode (encodeBytes i ++ rest) = .ok (decodeWord (encode i), rest) := by
  simp [encodeBytes, decode]

/-- Settles O7: the two bytes of an instruction are its word, and its word decodes to it. -/
theorem decodeInvertsEncode : Obligations.DecodeInvertsEncode := by
  intro i h
  refine ⟨decodeWord_encode h, fun rest => ?_⟩
  rw [decode_encodeBytes_append, decodeWord_encode h]

/-- Settles O9: each word is the encoding of its instruction, which decodes to it. -/
theorem wordsOfTheMapDecode : Obligations.WordsOfTheMapDecode :=
  ⟨decodeWord_encode (i := .cls 0) rfl, decodeWord_encode (i := .ret 0) rfl, decodeWord_encode (i := .jp 0xABC) rfl,
    decodeWord_encode (i := .seImm 3 0x2A) rfl, decodeWord_encode (i := .addReg 1 2) rfl,
    decodeWord_encode (i := .drw 1 2 15) rfl, decodeWord_encode (i := .skp 5) rfl,
    decodeWord_encode (i := .ldRegs 2) rfl, decodeWord_encode (i := .nopf 0x175) rfl⟩

/-! ### Decoded instructions are well formed -/

theorem decodeGroup0_wellFormed (w : Word) : (decodeGroup0 w).WellFormed := by
  unfold decodeGroup0
  iterate 2 split; · rfl
  exact wellFormed_sys_iff.2 (by simp [group0Ops, *])

theorem decodeGroup8_wellFormed (w : Word) : (decodeGroup8 w).WellFormed := by
  unfold decodeGroup8
  iterate 9 split; · rfl
  exact wellFormed_nop8_iff.2 (by simp [group8Ops, *])

theorem decodeGroupE_wellFormed (w : Word) : (decodeGroupE w).WellFormed := by
  unfold decodeGroupE
  iterate 2 split; · rfl
  exact wellFormed_nope_iff.2 (by simp [groupEOps, *])

theorem decodeGroupF_wellFormed (w : Word) : (decodeGroupF w).WellFormed := by
  unfold decodeGroupF
  iterate 9 split; · rfl
  exact wellFormed_nopf_iff.2 (by simp [groupFOps, *])

theorem decodeWord_wellFormed (w : Word) : (decodeWord w).WellFormed := by
  unfold decodeWord
  split
  case h_1 => exact decodeGroup0_wellFormed w
  case h_9 => exact decodeGroup8_wellFormed w
  case h_15 => exact decodeGroupE_wellFormed w
  case h_16 => exact decodeGroupF_wellFormed w
  all_goals rfl

/-- Settles O8: a word falls to a group's fallback row only when its sub-opcode has no row of its own, and no row
drops a bit. -/
theorem encodeInvertsDecode : Obligations.EncodeInvertsDecode :=
  fun w => ⟨decodeWord_wellFormed w, encode_decodeWord w⟩

end Sys2Proof
end

section
/-! PROOFS. The row a word selects (30_encoding.md R64, R66): a word has at most one matching row per mask, and a
matching row with a mask of its group's sub-opcode is the row of the instruction decoded. -/

namespace Sys2Proof

/-! ### The row of an instruction selects its word -/

open Laws.RowMatch in
theorem rowOf_selectedBy_encode (i : Instr) : (rowOf i).selectedBy (encode i) = true := by
  change Statement i
  cases i
  exacts [cls _, ret _, sys _, jp _, call _, seImm _ _, sneImm _ _, seReg _ _ _, ldImm _ _, addImm _ _, ldReg _ _,
    orReg _ _, andReg _ _, xorReg _ _, addReg _ _, subReg _ _, shr _ _, subnReg _ _, shl _ _, sneReg _ _ _, ldI _,
    jpV0 _, rnd _ _, drw _ _ _, skp _, sknp _, ldVxDt _, ldVxK _, ldDtVx _, ldStVx _, addI _, ldF _, ldB _, stRegs _,
    ldRegs _, nop8 _, nope _, nopf _]

theorem rowOf_decodeWord_selectedBy (w : Word) : (rowOf (decodeWord w)).selectedBy w = true := by
  simpa only [encode_decodeWord] using rowOf_selectedBy_encode (decodeWord w)

theorem rowOf_mem (i : Instr) : rowOf i ∈ opcodeMap := by
  have hnumber : rowNumber i - 1 < opcodeMap.length := by cases i <;> simp [rowNumber, opcodeMap]
  unfold rowOf
  rw [List.getD_eq_getElem _ _ hnumber]
  exact List.getElem_mem hnumber

/-! ### Rows with one mask -/

theorem OpcodeRow.selectedBy_iff {r : OpcodeRow} {w : Word} : r.selectedBy w = true ↔ w &&& r.mask = r.pattern :=
  beq_iff_eq

/-- A word selects at most one row of a given mask. -/
theorem OpcodeRow.eq_of_selectedBy {r r' : OpcodeRow} {w : Word} (hmask : r.mask = r'.mask)
    (h : r.selectedBy w = true) (h' : r'.selectedBy w = true) : r = r' := by
  rw [selectedBy_iff] at h h'
  obtain ⟨p, m⟩ := r
  obtain ⟨p', m'⟩ := r'
  dsimp only at hmask h h'
  rw [← h, ← h', hmask]

/-! ### The row depends on the bits of a word that the decoder dispatches on (R63, R64) -/

section
variable {w v : Word}

theorem fieldN_congr (hk : fieldKk w = fieldKk v) : fieldN w = fieldN v := by
  have h := congrArg BitVec.toNat hk
  rw [toNat_fieldKk, toNat_fieldKk] at h
  apply BitVec.eq_of_toNat_eq
  rw [toNat_fieldN, toNat_fieldN]
  omega

theorem rowNumber_decodeGroup0_congr (hk : fieldKk w = fieldKk v) :
    rowNumber (decodeGroup0 w) = rowNumber (decodeGroup0 v) := by
  simp only [decodeGroup0, hk, apply_ite rowNumber]; rfl

theorem rowNumber_decodeGroup8_congr (hn : fieldN w = fieldN v) :
    rowNumber (decodeGroup8 w) = rowNumber (decodeGroup8 v) := by
  simp only [decodeGroup8, hn, apply_ite rowNumber]; rfl

theorem rowNumber_decodeGroupE_congr (hk : fieldKk w = fieldKk v) :
    rowNumber (decodeGroupE w) = rowNumber (decodeGroupE v) := by
  simp only [decodeGroupE, hk, apply_ite rowNumber]; rfl

theorem rowNumber_decodeGroupF_congr (hk : fieldKk w = fieldKk v) :
    rowNumber (decodeGroupF w) = rowNumber (decodeGroupF v) := by
  simp only [decodeGroupF, hk, apply_ite rowNumber]; rfl

theorem rowOf_congr {i j : Instr} (h : rowNumber i = rowNumber j) : rowOf i = rowOf j := by
  unfold rowOf; rw [h]

theorem rowOf_decodeWord_congr (hg : fieldGroup w = fieldGroup v) (hk : fieldKk w = fieldKk v) :
    rowOf (decodeWord w) = rowOf (decodeWord v) := by
  apply rowOf_congr
  unfold decodeWord
  rw [hg]
  split
  case h_1 => exact rowNumber_decodeGroup0_congr hk
  case h_9 => exact rowNumber_decodeGroup8_congr (fieldN_congr hk)
  case h_15 => exact rowNumber_decodeGroupE_congr hk
  case h_16 => exact rowNumber_decodeGroupF_congr hk
  all_goals rfl

theorem rowOf_decodeWord_congr_of_group8 (hw : fieldGroup w = 0x8#4) (hv : fieldGroup v = 0x8#4)
    (hn : fieldN w = fieldN v) : rowOf (decodeWord w) = rowOf (decodeWord v) := by
  rw [decodeWord_of_group8 hw, decodeWord_of_group8 hv]
  exact rowOf_congr (rowNumber_decodeGroup8_congr hn)

end

/-! ### The printed map: its three masks, and the rows with a sub-opcode -/

theorem opcodeMap_mask_cases : ∀ r ∈ opcodeMap,
    r.mask = 0xF000#16 ∨ r.mask = 0xF0FF#16 ∨ r.mask = 0xF00F#16 ∧ fieldGroup r.pattern = 0x8#4 := by decide

/-- The match of a row with a sub-opcode, read as a word, decodes to the row. -/
theorem rowOf_decodeWord_pattern : ∀ r ∈ opcodeMap, r.mask ≠ 0xF000#16 → rowOf (decodeWord r.pattern) = r := by
  decide

theorem specificity_of_groupMask {r : OpcodeRow} (hmask : r.mask = 0xF000#16) : r.specificity = 4 := by
  unfold OpcodeRow.specificity; rw [hmask]; rfl

theorem four_lt_specificity {r : OpcodeRow} (hr : r ∈ opcodeMap) (hmask : r.mask ≠ 0xF000#16) :
    4 < r.specificity := by
  unfold OpcodeRow.specificity
  obtain hgroup | hbyte | ⟨hnibble, -⟩ := opcodeMap_mask_cases r hr
  · exact absurd hgroup hmask
  · rw [hbyte]; decide
  · rw [hnibble]; decide

/-- A row with a sub-opcode is the row of every word it selects: the word and the row's match agree on the bits
that the decoder dispatches on. -/
theorem eq_rowOf_of_selectedBy {r : OpcodeRow} {w : Word} (hr : r ∈ opcodeMap) (hmask : r.mask ≠ 0xF000#16)
    (h : r.selectedBy w = true) : r = rowOf (decodeWord w) := by
  rw [OpcodeRow.selectedBy_iff] at h
  have hpattern := rowOf_decodeWord_pattern r hr hmask
  obtain hgroup | hbyte | ⟨hnibble, h8⟩ := opcodeMap_mask_cases r hr
  · exact absurd hgroup hmask
  · rw [hbyte, and_byteMask] at h
    have hg : fieldGroup r.pattern = fieldGroup w := by rw [← h, fieldGroup_layoutXKk]
    have hk : fieldKk r.pattern = fieldKk w := by rw [← h, fieldKk_layoutXKk]
    exact hpattern.symm.trans (rowOf_decodeWord_congr hg hk)
  · rw [hnibble, and_nibbleMask] at h
    have hg : fieldGroup r.pattern = fieldGroup w := by rw [← h, fieldGroup_layoutXYN]
    have hn : fieldN r.pattern = fieldN w := by rw [← h, fieldN_layoutXYN]
    exact hpattern.symm.trans (rowOf_decodeWord_congr_of_group8 h8 (hg.symm.trans h8) hn)

/-- Settles O6: a matching row with a sub-opcode is the row decoded; the group's fallback row is it too, or has
fewer bits than it. -/
theorem decodeTakesTheMostSpecificRow : Obligations.DecodeTakesTheMostSpecificRow := by
  intro w
  have hself := rowOf_decodeWord_selectedBy w
  refine ⟨hself, fun r hr h => ?_⟩
  by_cases hmask : r.mask = 0xF000#16
  · by_cases hmask' : (rowOf (decodeWord w)).mask = 0xF000#16
    · exact .inl (OpcodeRow.eq_of_selectedBy (hmask.trans hmask'.symm) h hself)
    · exact .inr (specificity_of_groupMask hmask ▸ four_lt_specificity (rowOf_mem _) hmask')
  · exact .inl (eq_rowOf_of_selectedBy hr hmask h)

end Sys2Proof
end

section
/-! PROOFS. An instruction's ignored bits reach `ir` and nothing else (30_encoding.md R67): its pseudocode does not
name them and commutes with a write of `ir`. -/

namespace Sys2Proof.Machine

open Sys2Proof.Claim

/-- `s` with another word in the instruction register. -/
def State.withIr (s : State) (w : Word) : State := { s with ir := w }

@[simp] theorem stackRead_withIr (s : State) (w : Word) (k : Nat) : stackRead (s.withIr w) k = stackRead s k := rfl

@[simp] theorem State.withIr_sp (s : State) (w : Word) : (s.withIr w).sp = s.sp := rfl

theorem State.fetched_withIr (s : State) (v w : Word) : (s.fetched v).withIr w = s.fetched w := rfl

theorem State.skipIf_withIr (s : State) (w : Word) (c : Bool) : (s.withIr w).skipIf c = (s.skipIf c).withIr w := by
  rw [State.skipIf_eq, State.skipIf_eq]; rfl

/-- Two instructions with one pseudocode, which commutes with writes of `ir`, differ in what they leave in `ir`
alone. -/
theorem sameButIr_complete {body : State → Except Raise State} (hb : ∀ w, CommutesWith (·.withIr w) body)
    (i j : Instr) (s : State) : SameButIr (complete i body s) (complete j body s) := by
  have hj : body (s.fetched (encode j)) = (body (s.fetched (encode i))).map (·.withIr (encode j)) :=
    (congrArg body (s.fetched_withIr (encode i) (encode j))).symm.trans (hb (encode j) _)
  cases hi : body (s.fetched (encode i)) with
  | ok t =>
    rw [hi] at hj
    exact ⟨_, _, complete_of_ok hi, complete_of_ok hj, rfl⟩
  | error r =>
    rw [hi] at hj
    exact ⟨_, _, complete_of_error hi, complete_of_error hj, rfl⟩

/-- Settles O10: RET's pseudocode reads the stack, the two skips compare registers, and the others write what `ir`
has no part in. -/
theorem ignoredBitsDoNotMatter : Obligations.IgnoredBitsDoNotMatter := by
  intro s x y a b m n
  refine ⟨?cls, ?ret, ?seReg, ?sneReg, ?shr, ?shl, ?sys, ?nop8, ?nope, ?nopf⟩
  all_goals
    dsimp only [exec, execCls, execRet, execSeReg, execSneReg, execShr, execShl, execSys, execNop8, execNope, execNopf]
    refine sameButIr_complete (fun w t => ?_) _ _ s
  case ret =>
    simp only [State.withIr_sp, stackRead_withIr]
    cases stackRead t (t.sp - 1#8).toNat <;> rfl
  case seReg | sneReg => exact congrArg Except.ok (t.skipIf_withIr w _)
  all_goals rfl

end Sys2Proof.Machine
end

section
/-! PROOFS. The step cycle (40_step_cycle.md R80 to R88): the halted core, the fetch and its fault, the instruction
executed, the no-op words. -/

namespace Sys2Proof.Machine

open Sys2Proof.Claim

/-! ### The three kinds of step -/

theorem step_of_halted {s : State} (h : s.fault ≠ none) : step s = .next s := by
  obtain ⟨f, hf⟩ := Option.ne_none_iff_exists'.1 h
  unfold step
  rw [hf]

theorem step_of_fetch_ok {s : State} {w : Word} (hf : s.fault = none) (hw : fetch s = .ok w) :
    step s = exec (decodeWord w) s := by
  unfold step
  rw [hf, hw]

theorem step_of_fetch_error {s : State} {r : Raise} (hf : s.fault = none) (hr : fetch s = .error r) :
    step s = .next (s.takeFault r) := by
  unfold step
  rw [hf, hr]

/-! ### The halted core -/

/-- Of the host's `step` a halted core takes in the random byte and nothing else. -/
theorem State.stepEvent_of_halted {s : State} (h : s.fault ≠ none) (rnd : Byte) :
    s.stepEvent rnd = .next { s with rnd := some rnd } :=
  step_of_halted (s := { s with rnd := some rnd }) h

/-- The loads, the keys, the ticks and the observations do not write the latch, and a halted core's step does not
either: `reset` alone is left. -/
theorem Session.apply_fault_of_halted {z z' : Session} {e : Event} (hz : z.state.fault ≠ none)
    (h : z.apply e = some z') (he : e ≠ .reset) : z'.state.fault = z.state.fault := by
  cases e <;> dsimp only [Session.apply] at h
  case reset => exact absurd rfl he
  case loadGlyphs =>
    split at h
    · cases h; rfl
    · cases h
  case loadProgram bytes =>
    split at h
    · cases h
    · cases h; rfl
    · next hload =>
      cases h
      rw [(State.loadProgram_ok_iff.1 hload).2]
    · cases h
  case step rnd =>
    rw [State.stepEvent_of_halted hz] at h
    split at h <;> cases h <;> rfl
  case setKeys | tick | observeFramebuffer | observeTimers | observeFault => cases h; rfl

/-- Settles O5: a halted core's step changes nothing, of the events `reset` alone writes its latch, and no event but
the loads and the step has a condition. -/
theorem haltedCoreStaysHaltedUntilReset : Obligations.HaltedCoreStaysHaltedUntilReset := by
  refine ⟨fun s h => ⟨step_of_halted h, State.endOfRun_of_fault h⟩, ?_, fun z => ⟨_, rfl, rfl⟩, ?_⟩
  · exact fun _ _ _ => Session.apply_fault_of_halted
  · exact fun z => ⟨rfl, fun _ => rfl, rfl, rfl⟩

/-! ### The step is total -/

theorem complete_answers (i : Instr) (body : State → Except Raise State) (s : State) :
    ∃ t, complete i body s = .next t := by
  cases h : body (s.fetched (encode i)) with
  | ok t => exact ⟨t, complete_of_ok h⟩
  | error r => exact ⟨s.takeFault r, complete_of_error h⟩

/-- Each arm of the dispatch runs its pseudocode by `complete`. -/
theorem exec_answers (i : Instr) (s : State) : ∃ t, exec i s = .next t := by
  cases i <;> dsimp only [exec] <;> exact complete_answers _ _ s

/-- Settles O46: a step is no change, a fetch fault, or an instruction, which always answers a next state. -/
theorem stepAlwaysAnswersANextState : Obligations.StepAlwaysAnswersANextState := by
  refine ⟨fun s => ?_, exec_answers⟩
  rcases step_cases s with ⟨-, hstep⟩ | ⟨-, r, -, hstep⟩ | ⟨-, w, -, hstep⟩
  · exact ⟨s, hstep⟩
  · exact ⟨s.takeFault r, hstep⟩
  · rw [hstep]
    exact exec_answers _ s

/-! ### The fetch -/

/-- Settles O2: two bytes in memory are fetched as one word, and the decoder reads the same two bytes. -/
theorem stepExecutesTheFetchedInstruction : Obligations.StepExecutesTheFetchedInstruction := by
  intro s i hs hpc hdecode
  have hfetch := fetch_ok_iff.2 ⟨Nat.le_of_succ_le_succ hpc, rfl⟩
  cases hdecode
  exact ⟨step_of_fetch_ok hs hfetch, decodeWord_wellFormed _, encode_decodeWord _⟩

/-- Settles O3: the fetch raises with its first address out of range, which is `pc + 1` at the last byte of memory
and `pc` beyond it. -/
theorem fetchOutsideMemoryFaults : Obligations.FetchOutsideMemoryFaults := by
  intro s hs
  refine ⟨fun h => ?last, fun h => ?beyond⟩
  case last =>
    have hr : fetch s = .error ⟨.fetch, 4096⟩ := fetch_error_iff.2 ⟨by omega, by rw [if_pos h]⟩
    exact step_of_fetch_error hs hr
  case beyond =>
    have hne : s.pc.toNat ≠ 4095 := by omega
    have hr : fetch s = .error ⟨.fetch, s.pc.toNat⟩ := fetch_error_iff.2 ⟨by omega, by rw [if_neg hne]⟩
    exact step_of_fetch_error hs hr

/-- A word's bytes, as memory holds them, decode to what the word decodes to. -/
theorem decode_high_low (w : Word) : decode [highByte w, lowByte w] = .ok (decodeWord w, []) := by
  simp [decode]

theorem tableWord_of_lt {w : Nat} (h : w < 65536) : tableWord 16 w = BitVec.ofNat 16 w := by
  rw [tableWord, Nat.mod_eq_of_lt (show w < 2 ^ 16 from h)]

/-- Settles O59: the state with a placed word is not halted and fetches that word. -/
theorem placedWordIsExecuted : Obligations.PlacedWordIsExecuted := by
  intro s w hw
  rw [State.withFetchWord, decodeTableWord, tableWord_of_lt hw, decode_high_low]
  exact ⟨step_of_fetch_ok rfl (fetch_placeWord s _), rfl⟩

/-! ### The no-op words -/

/-- A step whose pseudocode leaves the fetched state as it is. -/
theorem complete_noop {i : Instr} {body : State → Except Raise State} {s : State}
    (h : body (s.fetched (encode i)) = .ok (s.fetched (encode i))) : complete i body s = .next (after s i) :=
  complete_of_ok h

/-- The reserved sub-opcodes of group 0x8 have no row of their own. -/
theorem notMem_group8Ops_of_reserved : ∀ n : Nibble, n ∈ [0x8#4, 0x9#4, 0xA#4, 0xB#4, 0xC#4, 0xD#4, 0xF#4] →
    n ∉ group8Ops := by
  decide

/-- Settles O11: a sub-opcode without a row of its own falls to its group's last row, whose pseudocode is empty; so
is that of 8xy0 under `OP_8XY0 = noop`. -/
theorem reservedWordsAreNoOps : Obligations.ReservedWordsAreNoOps := by
  refine ⟨?group0, ?group8, ?groupE, ?groupF, ?noops, ?ldReg⟩
  case group0 => exact fun _ hg hk => (decodeWord_of_group0 hg).trans (decodeGroup0_of_notMem hk)
  case group8 =>
    exact fun _ hg hn =>
      (decodeWord_of_group8 hg).trans (decodeGroup8_of_notMem (notMem_group8Ops_of_reserved _ hn))
  case groupE => exact fun _ hg hk => (decodeWord_of_groupE hg).trans (decodeGroupE_of_notMem hk)
  case groupF => exact fun _ hg hk => (decodeWord_of_groupF hg).trans (decodeGroupF_of_notMem hk)
  case noops => exact fun _ _ => ⟨complete_noop rfl, complete_noop rfl, complete_noop rfl, complete_noop rfl⟩
  case ldReg =>
    intro s x y hcfg
    change execLdReg x y s = _
    refine complete_noop ?_
    rw [State.fetched_cfg, hcfg]

end Sys2Proof.Machine
end

section
/-! PROOFS. Control transfer (41_control_flow.md R91 to R98): the words that select each instruction, and the state
each one completes in or faults from. -/

namespace Sys2Proof.Machine

open Sys2Proof.Claim

/-! ### The words a row selects (30_encoding.md R64) -/

theorem decodeWord_of_encode_eq {i : Instr} {w : Word} (hi : i.WellFormed) (h : encode i = w) : decodeWord w = i :=
  h ▸ decodeWord_encode hi

/-- A row under mask 0xF000 selects its instruction when the instruction of a word of its group encodes to that
word. -/
theorem selects_of_groupMask {pattern : Word} {i : Word → Instr} (hi : ∀ w, (i w).WellFormed)
    (h : ∀ w, fieldGroup w = fieldGroup pattern → encode (i w) = w) : Selects pattern 0xF000#16 i := by
  intro w hw
  refine decodeWord_of_encode_eq (hi w) (h w ?_)
  rw [← hw, and_groupMask, fieldGroup_layoutNnn]

/-- The same under mask 0xF0FF, for the words of its group and low byte. -/
theorem selects_of_byteMask {pattern : Word} {i : Word → Instr} (hi : ∀ w, (i w).WellFormed)
    (h : ∀ w, fieldGroup w = fieldGroup pattern → fieldKk w = fieldKk pattern → encode (i w) = w) :
    Selects pattern 0xF0FF#16 i := by
  intro w hw
  refine decodeWord_of_encode_eq (hi w) (h w ?_ ?_)
  · rw [← hw, and_byteMask, fieldGroup_layoutXKk]
  · rw [← hw, and_byteMask, fieldKk_layoutXKk]

/-! ### The stack -/

/-- RET with `sp = j + 1` pops entry `j`, which keeps its value (R91). -/
theorem exec_ret_pops {s : State} (ign : Nibble) {j : Fin 16} (hsp : s.sp.toNat = j.val + 1) :
    exec (.ret ign) s = .next { after s (.ret ign) with sp := BitVec.ofNat 8 j.val, pc := s.stack[j] } := by
  have hpop : s.sp - 1#8 = BitVec.ofNat 8 j.val := by bv_omega
  have hindex : (s.sp - 1#8).toNat = j.val := by bv_omega
  have hread : stackRead (s.fetched (encode (.ret ign))) (s.sp - 1#8).toNat = .ok s.stack[j] :=
    stackRead_ok_iff.2 ⟨hindex ▸ j.isLt, by simp [hindex]⟩
  change execRet ign s = _
  refine complete_of_ok ?_
  rw [State.fetched_sp, hread, hpop]
  rfl

/-- CALL with an entry free pushes the address after it (R93). -/
theorem exec_call_pushes {s : State} (nnn : Imm12) (hsp : s.sp.toNat < 16) :
    exec (.call nnn) s = .next { after s (.call nnn) with
      stack := s.stack.set s.sp.toNat (s.pc + 2#16) hsp
      sp := BitVec.ofNat 8 (s.sp.toNat + 1), pc := nnn.zeroExtend 16 } := by
  have hpush : s.sp + 1#8 = BitVec.ofNat 8 (s.sp.toNat + 1) := by bv_omega
  have hwrite := stackWrite_ok_iff (s := s.fetched (encode (.call nnn))) (v := s.pc + 2#16) |>.2 ⟨hsp, rfl⟩
  change execCall nnn s = _
  refine complete_of_ok ?_
  rw [State.fetched_sp, State.fetched_pc, hwrite, ← hpush, ← targetOf_eq_zeroExtend]
  rfl

/-- RET faults with `sp - 1` in 8 bits where that is no index of an entry. -/
theorem exec_ret_underflows {s : State} (ign : Nibble) (hsp : (s.sp.toNat + 255) % 256 > 15) :
    exec (.ret ign) s = .next (faulted s .stackUnderflow ((s.sp.toNat + 255) % 256)) := by
  have hindex : (s.sp - 1#8).toNat = (s.sp.toNat + 255) % 256 := by bv_omega
  have hread : stackRead (s.fetched (encode (.ret ign))) ((s.sp.toNat + 255) % 256) =
      .error ⟨.stackUnderflow, (s.sp.toNat + 255) % 256⟩ := stackRead_error_iff.2 ⟨hsp, rfl⟩
  change execRet ign s = .next (s.takeFault ⟨.stackUnderflow, (s.sp.toNat + 255) % 256⟩)
  refine complete_of_error ?_
  rw [State.fetched_sp, hindex, hread]

/-- CALL faults with `sp` where no entry is free. -/
theorem exec_call_overflows {s : State} (nnn : Imm12) (hsp : s.sp.toNat > 15) :
    exec (.call nnn) s = .next (faulted s .stackOverflow s.sp.toNat) := by
  have hwrite : stackWrite (s.fetched (encode (.call nnn))) s.sp.toNat (s.pc + 2#16) =
      .error ⟨.stackOverflow, s.sp.toNat⟩ := stackWrite_error_iff.2 ⟨hsp, rfl⟩
  change execCall nnn s = .next (s.takeFault ⟨.stackOverflow, s.sp.toNat⟩)
  refine complete_of_error ?_
  rw [State.fetched_sp, State.fetched_pc, hwrite]

/-- Settles O12: RET reads the stack at `sp - 1` in 8 bits, which is an entry or an underflow. -/
theorem returnPopsTheStack : Obligations.ReturnPopsTheStack :=
  ⟨selects_of_byteMask (fun _ => rfl) fun _ => layoutXKk_of_group,
    fun _ ign => ⟨fun _ => exec_ret_pops ign, exec_ret_underflows ign⟩⟩

/-- Settles O14: CALL writes the stack at `sp`, which is an entry or an overflow. -/
theorem callPushesTheReturnAddress : Obligations.CallPushesTheReturnAddress := by
  refine ⟨selects_of_groupMask (fun _ => rfl) fun _ => layoutNnn_of_group, fun s nnn => ⟨fun j hsp => ?pushes,
    exec_call_overflows nnn⟩⟩
  refine ⟨_, exec_call_pushes nnn (hsp ▸ j.isLt), ?entry, fun k hk => ?others, rfl⟩
  case entry => simp [hsp]
  case others =>
    have hne : j.val ≠ k.val := fun h => hk (Fin.ext h.symm)
    simp [hsp, hne]

/-- Settles O15: the entry that RET pops is the one that CALL pushed. -/
theorem callThenReturnComesBack : Obligations.CallThenReturnComesBack := by
  intro s nnn ign hsp
  have hlt : s.sp.toNat < 16 := Nat.lt_succ_of_le hsp
  have hpushed : (BitVec.ofNat 8 (s.sp.toNat + 1)).toNat = s.sp.toNat + 1 := by bv_omega
  refine ⟨_, _, exec_call_pushes nnn hlt, exec_ret_pops ign (j := ⟨s.sp.toNat, hlt⟩) hpushed, ?_, ?_⟩
  · simp
  · simp

/-! ### Jumps and skips -/

/-- Settles O13: JP's pseudocode is the one write of `pc`. -/
theorem jumpLoadsTheTarget : Obligations.JumpLoadsTheTarget := by
  refine ⟨selects_of_groupMask (fun _ => rfl) fun _ => layoutNnn_of_group, fun s nnn => ?_⟩
  rw [← targetOf_eq_zeroExtend]
  change execJp nnn s = _
  exact complete_of_ok rfl

/-- An instruction whose pseudocode is a skip completes, two bytes further on where its condition holds (R83). -/
theorem complete_skipIf {i : Instr} {c : State → Bool} {s : State} {p : Prop} [Decidable p]
    (hc : c (s.fetched (encode i)) = true ↔ p) :
    complete i (fun t => .ok (t.skipIf (c t))) s =
      .next { after s i with pc := if p then s.pc + 4#16 else s.pc + 2#16 } := by
  refine complete_of_ok (congrArg Except.ok ?_)
  rw [State.skipIf_fetched]
  simp only [hc]
  rfl

/-- Settles O16: both are skips, on a register's (in)equality with the immediate. -/
theorem immediateSkips : Obligations.ImmediateSkips := by
  refine ⟨selects_of_groupMask (fun _ => rfl) fun _ hg => layoutXKk_of_group hg rfl,
    selects_of_groupMask (fun _ => rfl) fun _ hg => layoutXKk_of_group hg rfl, fun s x kk => ⟨?se, ?sne⟩⟩
  case se =>
    change execSeImm x kk s = _
    exact complete_skipIf beq_iff_eq
  case sne =>
    change execSneImm x kk s = _
    exact complete_skipIf bne_iff_ne

/-- Settles O17: both are skips, on the (in)equality of two registers; the low nibble goes to `ir` alone. -/
theorem registerSkips : Obligations.RegisterSkips := by
  refine ⟨selects_of_groupMask (fun _ => rfl) fun _ hg => layoutXYN_of_group hg rfl,
    selects_of_groupMask (fun _ => rfl) fun _ hg => layoutXYN_of_group hg rfl, fun s x y ign => ⟨?se, ?sne⟩⟩
  case se =>
    change execSeReg x y ign s = _
    exact complete_skipIf beq_iff_eq
  case sne =>
    change execSneReg x y ign s = _
    exact complete_skipIf bne_iff_ne

/-- A byte and a 12-bit number have a sum below 65536: the target of Bnnn is not reduced (R98). -/
theorem toNat_offsetTarget (a : Byte) (nnn : Imm12) : (offsetTarget a nnn).toNat = a.toNat + nnn.toNat := by
  unfold offsetTarget; bv_omega

theorem exec_jpV0_of_index {s : State} (nnn : Imm12) (hcfg : s.cfg.bnnnTarget = .index) :
    exec (.jpV0 nnn) s = .next { after s (.jpV0 nnn) with I := offsetTarget (s.reg 0#4) nnn } := by
  change execJpV0 nnn s = _
  refine complete_of_ok ?_
  rw [State.fetched_cfg, hcfg]
  rfl

theorem exec_jpV0_of_pc {s : State} (nnn : Imm12) (hcfg : s.cfg.bnnnTarget = .pc) :
    exec (.jpV0 nnn) s = .next { after s (.jpV0 nnn) with pc := offsetTarget (s.reg 0#4) nnn } := by
  change execJpV0 nnn s = _
  refine complete_of_ok ?_
  rw [State.fetched_cfg, hcfg]
  rfl

/-- Settles O18: the parameter says which of the two registers Bnnn's one write goes to. -/
theorem jumpOffsetGoesToTheConfiguredTarget : Obligations.JumpOffsetGoesToTheConfiguredTarget :=
  ⟨selects_of_groupMask (fun _ => rfl) fun _ => layoutNnn_of_group, rfl, fun s nnn =>
    ⟨fun hcfg => ⟨_, exec_jpV0_of_index nnn hcfg, toNat_offsetTarget (s.reg 0#4) nnn, rfl⟩,
      fun hcfg => ⟨_, exec_jpV0_of_pc nnn hcfg, toNat_offsetTarget (s.reg 0#4) nnn, rfl⟩⟩⟩

end Sys2Proof.Machine
end

section
/-! PROOFS. Register loads, ALU and random (42_load_and_alu.md R110 to R126): the words that select each instruction,
the one or two registers it writes, and the model's bytes as the spec's arithmetic gives them. -/

namespace Sys2Proof.Machine

open Sys2Proof.Claim

/-! ### The words a row of group 0x8 selects (30_encoding.md R64) -/

/-- A row under mask 0xF00F selects its instruction when that encodes its fields around the row's fixed bits. -/
theorem selects_of_nibbleMask {pattern : Word} {i : Nibble → Nibble → Instr} (hi : ∀ x y, (i x y).WellFormed)
    (h : ∀ x y, encode (i x y) = layoutXYN (fieldGroup pattern) x y (fieldN pattern)) :
    Selects pattern 0xF00F#16 fun w => i (fieldX w) (fieldY w) := by
  intro w hw
  have hg : fieldGroup w = fieldGroup pattern := by rw [← hw, and_nibbleMask, fieldGroup_layoutXYN]
  have hn : fieldN w = fieldN pattern := by rw [← hw, and_nibbleMask, fieldN_layoutXYN]
  exact decodeWord_of_encode_eq (hi _ _) ((h _ _).trans (layoutXYN_of_group hg hn))

/-! ### The registers a completed step writes -/

section
variable {i : Instr} {s : State} {x : Nibble} {f b : Byte}

theorem writesReg_of_exec (h : exec i s = .next ((after s i).setReg x b)) : WritesReg i s x b :=
  ⟨_, h, State.reg_setReg_same _ x b, fun _ hr => State.reg_setReg_ne _ b hr, rfl⟩

/-- The flag is written first, so with `x = 0xF` the result stands (R113). -/
theorem writesFlagAndReg_of_exec (h : exec i s = .next ((after s i).setFlagThenReg x f b)) :
    WritesFlagAndReg i s x f b := by
  refine ⟨_, h, State.reg_setReg_same _ x b, fun hx => ?flag, fun r hrx hrf => ?others, rfl⟩
  case flag => exact (State.reg_setReg_ne _ b (Ne.symm hx)).trans (State.reg_setReg_same _ flagReg f)
  case others => exact State.reg_setFlagThenReg_ne _ f b (not_or.2 ⟨hrx, hrf⟩)

end

/-! ### Results -/

theorem sumByte_eq (a b : Byte) : sumByte a b = BitVec.ofNat 8 ((a.toNat + b.toNat) % 256) := by
  unfold sumByte; bv_omega

/-- The spec's borrow adds 256 where the difference is negative; modulo 256 it may always be added. -/
theorem differenceByte_eq (a b : Byte) :
    differenceByte a b = BitVec.ofNat 8 ((a.toNat + 256 - b.toNat) % 256) := by
  unfold differenceByte
  split <;> bv_omega

theorem halfByte_eq (a : Byte) : halfByte a = a >>> 1 := by
  apply BitVec.eq_of_toNat_eq
  rw [halfByte, BitVec.toNat_ushiftRight, Nat.shiftRight_eq_div_pow]
  bv_omega

theorem doubleByte_eq (a : Byte) : doubleByte a = a <<< 1 := by
  apply BitVec.eq_of_toNat_eq
  rw [doubleByte, BitVec.toNat_shiftLeft, Nat.shiftLeft_eq, BitVec.toNat_ofNat, pow_one]

/-! ### Flags -/

theorem flagByte_decide (p : Prop) [Decidable p] : flagByte (decide p) = if p then 1#8 else 0#8 := by
  simp [flagByte]

theorem flagByte_eq_ofNat (c : Bool) : flagByte c = BitVec.ofNat 8 c.toNat := by
  cases c <;> rfl

theorem lowBitFlag_eq (a : Byte) : lowBitFlag a = BitVec.ofNat 8 (a.toNat % 2) := by
  rw [lowBitFlag, flagByte_eq_ofNat, BitVec.getLsbD, Nat.toNat_testBit, pow_zero, Nat.div_one]

/-- The top bit of a byte is what is left of it above 127. -/
theorem highBitFlag_eq (a : Byte) : highBitFlag a = BitVec.ofNat 8 (a.toNat / 128) := by
  have htop : a.toNat / 2 ^ 7 % 2 = a.toNat / 128 := by have := a.isLt; omega
  rw [highBitFlag, flagByte_eq_ofNat, BitVec.getLsbD, Nat.toNat_testBit, htop]

/-! ### The forms that write a flag -/

/-- Settles O22: the sum modulo 256 is written after the carry. -/
theorem addRegisterSetsCarry : Obligations.AddRegisterSetsCarry := by
  refine ⟨selects_of_nibbleMask (fun _ _ => rfl) fun _ _ => rfl, fun s x y => ?_⟩
  rw [← sumByte_eq, ← flagByte_decide]
  exact writesFlagAndReg_of_exec rfl

/-- Settles O23: SUB and SUBN write the same difference and the same strict comparison, with the operands swapped. -/
theorem subtractionsSetStrictFlag : Obligations.SubtractionsSetStrictFlag := by
  refine ⟨selects_of_nibbleMask (fun _ _ => rfl) fun _ _ => rfl,
    selects_of_nibbleMask (fun _ _ => rfl) fun _ _ => rfl, fun s x y => ⟨?sub, ?subn⟩⟩
  case sub | subn =>
    rw [← differenceByte_eq, ← flagByte_decide]
    exact writesFlagAndReg_of_exec rfl

/-- Settles O24: halving and doubling are the shifts, and the flag is the bit they drop. -/
theorem shiftsMoveTheLostBitToTheFlag : Obligations.ShiftsMoveTheLostBitToTheFlag := by
  refine ⟨selects_of_nibbleMask (fun _ _ => rfl) fun _ _ => rfl,
    selects_of_nibbleMask (fun _ _ => rfl) fun _ _ => rfl, fun s x ign => ⟨?shr, ?shl⟩⟩
  case shr =>
    rw [← halfByte_eq, ← lowBitFlag_eq]
    exact writesFlagAndReg_of_exec rfl
  case shl =>
    rw [← doubleByte_eq, ← highBitFlag_eq]
    exact writesFlagAndReg_of_exec rfl

/-! ### The forms that write one register -/

/-- Settles O19: the one write is `V[x] <- kk`. -/
theorem loadImmediateSetsTheRegister : Obligations.LoadImmediateSetsTheRegister :=
  ⟨selects_of_groupMask (fun _ => rfl) fun _ hg => layoutXKk_of_group hg rfl,
    fun _ _ _ => writesReg_of_exec rfl⟩

/-- Settles O20: the one write is the sum modulo 256, the same as 8xy4's. -/
theorem addImmediateWrapsWithoutFlag : Obligations.AddImmediateWrapsWithoutFlag := by
  refine ⟨selects_of_groupMask (fun _ => rfl) fun _ hg => layoutXKk_of_group hg rfl, fun s x kk => ?_⟩
  rw [← sumByte_eq]
  exact writesReg_of_exec rfl

/-- Settles O21: each form's one write is the bitwise result. -/
theorem bitwiseFormsWriteNoFlag : Obligations.BitwiseFormsWriteNoFlag :=
  ⟨selects_of_nibbleMask (fun _ _ => rfl) fun _ _ => rfl, selects_of_nibbleMask (fun _ _ => rfl) fun _ _ => rfl,
    selects_of_nibbleMask (fun _ _ => rfl) fun _ _ => rfl, fun _ _ _ =>
      ⟨writesReg_of_exec rfl, writesReg_of_exec rfl, writesReg_of_exec rfl⟩⟩

/-- Settles O25: as a move its one write is `V[y]`; as a no-op it is one of the words that do nothing (R122). -/
theorem registerMoveFollowsTheParameter : Obligations.RegisterMoveFollowsTheParameter := by
  obtain ⟨-, -, -, -, -, hnoop⟩ := reservedWordsAreNoOps
  refine ⟨selects_of_nibbleMask (fun _ _ => rfl) fun _ _ => rfl, fun s x y => ⟨fun hcfg => ?move, hnoop s x y⟩⟩
  case move =>
    refine writesReg_of_exec ?_
    change execLdReg x y s = _
    refine complete_of_ok ?_
    rw [State.fetched_cfg, hcfg]
    rfl

/-- RND masks the byte that the step carries, supplied or not (R126). -/
theorem writesReg_rnd (s : State) (x : Nibble) (kk : Byte) : WritesReg (.rnd x kk) s x (s.stepByte &&& kk) :=
  writesReg_of_exec rfl

/-- Settles O26: a supplied byte is the one the step carries; where none is supplied the step still carries one. -/
theorem randomByteIsMasked : Obligations.RandomByteIsMasked := by
  refine ⟨selects_of_groupMask (fun _ => rfl) fun _ hg => layoutXKk_of_group hg rfl,
    fun s x kk => ⟨fun r hr => ?supplied, fun _ => ⟨s.stepByte, writesReg_rnd s x kk⟩⟩⟩
  case supplied =>
    have hbyte : s.stepByte = r := by rw [State.stepByte, hr, Option.getD_some]
    exact hbyte ▸ writesReg_rnd s x kk

end Sys2Proof.Machine
end

section
/-! PROOFS. The index register and the memory instructions (43_index_and_memory.md R130 to R136): the words that
select each instruction, the block a store or load loop moves or the fault it ends in, and the bytes that no
instruction stores to. -/

namespace Sys2Proof.Machine

open Sys2Proof.Claim

/-! ### A store loop as an instruction (R136) -/

section
variable {i : Instr} {s : State} {n : Nat} {b : Nat → State → Byte}
  (hexec : exec i s = complete i (storeLoop n b) s) (hb : ∀ k t m, b k { t with mem := m } = b k t)
include hexec hb

/-- An instruction whose pseudocode is a store loop that stays in memory stores the block at `I`. -/
theorem storesBlock_of_storeLoop {v : Nat → Byte} (hv : ∀ k, k < n → b k (s.fetched (encode i)) = v k)
    (hr : s.I.toNat + n ≤ 4096) : StoresBlock i s (s.ea 0) n v := by
  obtain ⟨t, ht, hframe, hbyte⟩ := storeLoop_ok (t := s.fetched (encode i)) (hb · _) hr
  refine ⟨t, hexec.trans (complete_of_ok ht), fun k hk => ?inside, fun c hc => ?outside, hframe⟩
  case inside =>
    have hin : s.I.toNat ≤ s.ea 0 + k ∧ s.ea 0 + k < s.I.toNat + n := by unfold State.ea; omega
    have hoff : s.ea 0 + k - s.I.toNat = k := Nat.add_sub_cancel_left _ _
    rw [hbyte, State.fetched_I, if_pos hin, hoff, hv k hk]
  case outside =>
    have hout : ¬(s.I.toNat ≤ c ∧ c < s.I.toNat + n) := by unfold State.ea at hc; omega
    rw [hbyte, State.fetched_I, if_neg hout, State.byte_fetched]

/-- One that leaves memory faults with the first address above 4095. -/
theorem exec_faults_of_storeLoop (hn : 0 < n) (hr : s.I.toNat + n > 4096) :
    exec i s = .next (faulted s .memWrite (firstBad s.I.toNat)) :=
  hexec.trans (complete_of_error (storeLoop_error (t := s.fetched (encode i)) (hb · _) hn hr))

end

/-- The table of digits that R133 lists is what the model computes digit by digit. -/
theorem bcdDigit_eq_getD (a : Byte) {k : Nat} (hk : k < 3) :
    bcdDigit a k = BitVec.ofNat 8 ([a.toNat / 100, a.toNat / 10 % 10, a.toNat % 10].getD k 0) := by
  obtain rfl | rfl | rfl : k = 0 ∨ k = 1 ∨ k = 2 := by omega
  · rfl
  · rfl
  · rfl

/-- Settles O28: Fx33's store loop has the three digits of `V[x]`, and ends at `I + 2`. -/
theorem bcdStoresThreeDigits : Obligations.BcdStoresThreeDigits := by
  refine ⟨selects_of_byteMask (fun _ => rfl) fun _ => layoutXKk_of_group,
    fun s x => ⟨fun hI => ?stores, fun hI => ?faults⟩⟩
  case stores =>
    exact storesBlock_of_storeLoop rfl (fun _ _ _ => rfl) (fun _ => bcdDigit_eq_getD (s.reg x)) (by omega)
  case faults => exact exec_faults_of_storeLoop rfl (fun _ _ _ => rfl) (by decide) (by omega)

/-! ### Registers to memory and back (R134, R135) -/

section
variable {i : Instr} {s : State} {x : Nibble}
  (hexec : exec i s = complete i (storeLoop (x.toNat + 1) fun k u => u.reg (runningReg k)) s)
include hexec

theorem storesBlock_of_storeRegs (hr : s.I.toNat + x.toNat ≤ 4095) :
    StoresBlock i s (s.ea 0) (x.toNat + 1) fun k => s.reg (BitVec.ofNat 4 k) :=
  storesBlock_of_storeLoop hexec (fun _ _ _ => rfl) (fun _ _ => rfl) (by omega)

theorem exec_faults_of_storeRegs (hr : s.I.toNat + x.toNat > 4095) :
    exec i s = .next (faulted s .memWrite (firstBad s.I.toNat)) :=
  exec_faults_of_storeLoop hexec (fun _ _ _ => rfl) x.toNat.succ_pos (by omega)

end

/-- Settles O29: Fx55 is the store loop of `V[0]`..`V[x]`. -/
theorem storeRegistersWritesTheBlock : Obligations.StoreRegistersWritesTheBlock :=
  ⟨selects_of_byteMask (fun _ => rfl) fun _ => layoutXKk_of_group,
    fun _ _ => ⟨storesBlock_of_storeRegs rfl, exec_faults_of_storeRegs rfl⟩⟩

theorem exec_ldRegs_of_store {s : State} (x : Nibble) (hcfg : s.cfg.fx65Direction = .store) :
    exec (.ldRegs x) s = complete (.ldRegs x) (storeLoop (x.toNat + 1) fun k u => u.reg (runningReg k)) s := by
  change execLdRegs x s = _
  simp only [execLdRegs, complete, State.fetched_cfg, hcfg]

theorem exec_ldRegs_of_load {s : State} (x : Nibble) (hcfg : s.cfg.fx65Direction = .load) :
    exec (.ldRegs x) s = complete (.ldRegs x) (loadLoop (x.toNat + 1)) s := by
  change execLdRegs x s = _
  simp only [execLdRegs, complete, State.fetched_cfg, hcfg]

/-- Fx65 as a load of a block inside memory, register by register. -/
theorem exec_ldRegs_loads {s : State} {x : Nibble} (hcfg : s.cfg.fx65Direction = .load)
    (hr : s.I.toNat + x.toNat ≤ 4095) :
    ∃ t, exec (.ldRegs x) s = .next t ∧
      (∀ r : Nibble, t.reg r = if r.toNat < x.toNat + 1 then s.byte (s.ea r.toNat) else s.reg r) ∧
      t = { after s (.ldRegs x) with V := t.V } := by
  obtain ⟨t, ht, hframe, hreg⟩ := loadLoop_ok (n := x.toNat + 1) (t := s.fetched (encode (.ldRegs x))) x.isLt
    (by rw [State.fetched_I]; omega)
  exact ⟨t, (exec_ldRegs_of_load x hcfg).trans (complete_of_ok ht), hreg, hframe⟩

theorem exec_ldRegs_load_faults {s : State} {x : Nibble} (hcfg : s.cfg.fx65Direction = .load)
    (hr : s.I.toNat + x.toNat > 4095) :
    exec (.ldRegs x) s = .next (faulted s .memRead (firstBad s.I.toNat)) :=
  (exec_ldRegs_of_load x hcfg).trans
    (complete_of_error (loadLoop_error x.toNat.succ_pos x.isLt (by rw [State.fetched_I]; omega)))

/-- Settles O30: the parameter says which of the two loops Fx65 is. -/
theorem loadRegistersFollowsTheParameter : Obligations.LoadRegistersFollowsTheParameter := by
  refine ⟨selects_of_byteMask (fun _ => rfl) fun _ => layoutXKk_of_group, rfl, fun s x =>
    ⟨fun hcfg => storesBlock_of_storeRegs (exec_ldRegs_of_store x hcfg),
      fun hcfg => exec_faults_of_storeRegs (exec_ldRegs_of_store x hcfg), fun hcfg hr => ?loads,
      exec_ldRegs_load_faults⟩⟩
  case loads =>
    obtain ⟨t, ht, hreg, hframe⟩ := exec_ldRegs_loads hcfg hr
    refine ⟨t, ht, fun k hk => ?loaded, fun r hx => ?others, hframe⟩
    case loaded =>
      have hindex : (BitVec.ofNat 4 k).toNat = k := runningReg_toNat (by omega)
      rw [hreg, hindex, if_pos (Nat.lt_succ_of_le hk)]
    case others => rw [hreg, if_neg (Nat.not_lt.2 hx)]

/-- Settles O31: Fx65 finds the registers in the block that Fx55 left; as a store it writes that block again, as a
load it reads it back. -/
theorem storeThenLoadGivesTheRegistersBack : Obligations.StoreThenLoadGivesTheRegistersBack := by
  intro s x hr
  obtain ⟨t, ht, hbyte, -, hframe⟩ := storesBlock_of_storeRegs (i := .stRegs x) rfl hr
  have hreg : ∀ r, t.reg r = s.reg r := fun r => by rw [hframe]; rfl
  have hI : t.I = s.I := by rw [hframe]; rfl
  have hea : ∀ k, t.ea k = s.ea k := fun k => by rw [State.ea, hI]; rfl
  have hstored : ∀ k, k ≤ x.toNat → t.byte (s.ea k) = s.reg (BitVec.ofNat 4 k) :=
    fun k hk => hbyte k (Nat.lt_succ_of_le hk)
  cases hcfg : t.cfg.fx65Direction with
  | store =>
    obtain ⟨u, hu, hbyte', -, hframe'⟩ := storesBlock_of_storeRegs (exec_ldRegs_of_store x hcfg) (hI ▸ hr)
    refine ⟨t, u, ht, hu, fun r => ?regs, fun k hk => ?bytes⟩
    case regs => rw [hframe', ← hreg]; rfl
    case bytes =>
      rw [← hreg, ← hea]
      exact hbyte' k (Nat.lt_succ_of_le hk)
  | load =>
    obtain ⟨u, hu, hreg', hframe'⟩ := exec_ldRegs_loads hcfg (hI ▸ hr)
    refine ⟨t, u, ht, hu, fun r => ?regs, fun k hk => ?bytes⟩
    case regs =>
      rw [hreg', hreg]
      split
      · next hlt =>
        rw [hea, hstored _ (Nat.le_of_lt_succ hlt), BitVec.ofNat_toNat, BitVec.setWidth_eq]
      · rfl
    case bytes => rw [hframe']; exact hstored k hk

/-! ### Bytes that a step leaves alone (R136) -/

@[simp] theorem State.byte_skipIf (s : State) (c : Bool) (a : Nat) : (s.skipIf c).byte a = s.byte a := by
  rw [State.skipIf_eq]; rfl

/-- A store loop, wherever it ends, leaves every address but its own alone. -/
theorem storeLoop_byte {n : Nat} {b : Nat → State → Byte} {t u : State} {a : Nat} (h : storeLoop n b t = .ok u)
    (ha : ∀ k, k < n → a ≠ t.ea k) : u.byte a = t.byte a := by
  refine (forUpTo_ok_invariant (fun _ v => v.I = t.I ∧ v.byte a = t.byte a) ⟨rfl, rfl⟩ ?_ h).2
  rintro k v w hk ⟨hI, hv⟩ hw
  obtain ⟨-, rfl⟩ := memWrite_ok_iff.1 hw
  have hne : a ≠ v.ea k := by rw [State.ea, hI]; exact ha k hk
  exact ⟨hI, (Memory.read_write_ne _ _ hne).trans hv⟩

/-- A step leaves a byte alone if its pseudocode, where it completes, does. -/
theorem complete_byte {i : Instr} {body : State → Except Raise State} {s t : State} {a : Nat}
    (hb : ∀ u, body (s.fetched (encode i)) = .ok u → u.byte a = s.byte a) (h : complete i body s = .next t) :
    t.byte a = s.byte a := by
  rcases complete_next_iff.1 h with h | ⟨e, -, rfl⟩
  · exact hb t h
  · rfl

/-- Settles O54: a store loop leaves the bytes outside its block alone; no other pseudocode writes memory. -/
theorem memoryChangesOnlyWhereStored : Obligations.MemoryChangesOnlyWhereStored := by
  intro i s t a h ha
  cases i <;> dsimp only [exec] at h
  all_goals refine complete_byte (fun u hu => ?_) h
  case ldB | stRegs => exact storeLoop_byte (t := s.fetched _) hu ha
  case ldRegs x =>
    rw [State.fetched_cfg] at hu
    cases hcfg : s.cfg.fx65Direction with
    | store =>
      rw [hcfg] at hu
      exact storeLoop_byte (t := s.fetched _) hu fun k hk => ha k (by rwa [storedBytes, if_pos hcfg])
    | load =>
      rw [hcfg] at hu
      rw [loadLoop_frame hu]
      rfl
  case drw =>
    obtain ⟨hframe, -, -⟩ := drawRows_keeps hu
    rw [hframe]; rfl
  case seImm | sneImm | seReg | sneReg => cases hu; exact State.byte_skipIf _ _ a
  case skp | sknp =>
    split at hu
    · cases hu; exact State.byte_skipIf _ _ a
    · cases hu
  case call =>
    split at hu
    · next v hv =>
      cases hu
      obtain ⟨_, rfl⟩ := stackWrite_ok_iff.1 hv
      rfl
    · cases hu
  case ret =>
    split at hu
    · cases hu; rfl
    · cases hu
  case ldReg | jpV0 | ldVxK =>
    split at hu
    · cases hu; rfl
    · cases hu; rfl
  case cls | sys | jp | ldImm | addImm | orReg | andReg | xorReg | addReg | subReg | shr | subnReg | shl | ldI | rnd
      | ldVxDt | ldDtVx | ldStVx | addI | ldF | nop8 | nope | nopf => cases hu; rfl

/-! ### The forms that write `I` (R130 to R132) -/

theorem indexSum_eq (i : Word) (a : Byte) : indexSum i a = BitVec.ofNat 16 ((i.toNat + a.toNat) % 65536) := by
  unfold indexSum; bv_omega

/-- A glyph address is below 65536 for every byte: Fx29 reduces nothing (R132). -/
theorem toNat_glyphAddress (a : Byte) : (glyphAddress a).toNat = 0x50 + 5 * a.toNat := by
  unfold glyphAddress glyphBase; bv_omega

/-- Settles O27: each form's pseudocode is the one write of `I`. -/
theorem indexRegisterForms : Obligations.IndexRegisterForms := by
  refine ⟨selects_of_groupMask (fun _ => rfl) fun _ => layoutNnn_of_group,
    selects_of_byteMask (fun _ => rfl) fun _ => layoutXKk_of_group,
    selects_of_byteMask (fun _ => rfl) fun _ => layoutXKk_of_group, fun s x nnn => ⟨?ldI, ?addI, ?ldF⟩⟩
  case ldI => rw [← targetOf_eq_zeroExtend]; rfl
  case addI => rw [← indexSum_eq]; rfl
  case ldF => exact ⟨(after s (.ldF x)).setI (glyphAddress (s.reg x)), rfl, toNat_glyphAddress (s.reg x), rfl⟩

end Sys2Proof.Machine
end

section
/-! PROOFS. The framebuffer instructions (44_display.md R150 to R152): the words that select each, the cells a draw
inverts, and what a second draw of the same sprite leaves of the first. -/

namespace Sys2Proof.Machine

open Sys2Proof.Claim

/-! ### A draw as an instruction (R151, R152) -/

/-- A draw in range completes, and inverts exactly the cells that its set sprite bits address: `RowsInRange` and
`Toggles` are the model's `rowsInRange` and `spriteCells` at the two position registers. -/
theorem exec_drw_inverts {s : State} {x y n : Nibble} (hr : RowsInRange s x y n.toNat) :
    ∃ t, exec (.drw x y n) s = .next t ∧ Inverted (after s (.drw x y n)) (Toggles s x y n) t := by
  obtain ⟨t, ht, hinv⟩ := drawRows_ok (t := after s (.drw x y n)) Inverted.start hr
  refine ⟨t, ?_, hinv⟩
  change execDrw x y n s = _
  exact complete_of_ok ht

/-- Settles O34: the facts of a draw in range are those of the inverted cells. -/
theorem drawTogglesTheSpriteCells : Obligations.DrawTogglesTheSpriteCells := by
  refine ⟨selects_of_groupMask (fun _ => rfl) fun _ hg => layoutXYN_of_group hg rfl, fun s x y n hr => ?_⟩
  obtain ⟨t, ht, hinv⟩ := exec_drw_inverts hr
  exact ⟨t, ht, hinv.inside, hinv.outside, hinv.flagSet, hinv.flagClear, hinv.reg, hinv.frame⟩

/-! ### The same sprite a second time (R152, corner case 4) -/

theorem pixel_xor_on_xor_on (p : Pixel) : p ^^^ pixelOn ^^^ pixelOn = p := by
  rw [BitVec.xor_assoc, BitVec.xor_self, BitVec.xor_zero]

theorem pixel_xor_on_eq_on_iff {p : Pixel} : p ^^^ pixelOn = pixelOn ↔ p = pixelOff := by
  rw [← BitVec.xor_left_inj (x := p) (y := pixelOff) pixelOn, BitVec.zero_xor]

section
variable {t u u' v : State} {P : Nat → Prop}
  (h : Inverted t P u) (h' : Inverted u' P v) (hu : ∀ i, u'.pixel i = u.pixel i)
include h hu

/-- The second inversion meets a lit cell where the first met a dark one. -/
theorem Inverted.exists_lit_iff : (∃ i, P i ∧ u'.pixel i = pixelOn) ↔ ∃ i, P i ∧ t.pixel i = pixelOff := by
  refine exists_congr fun i => and_congr_right fun hi => ?_
  rw [hu, h.inside i hi, pixel_xor_on_eq_on_iff]

include h' in
/-- Inverting a set of cells twice restores every cell. -/
theorem Inverted.pixel_twice (i : Nat) : v.pixel i = t.pixel i := by
  by_cases hi : P i
  · rw [h'.inside i hi, hu, h.inside i hi, pixel_xor_on_xor_on]
  · rw [h'.outside i hi, hu, h.outside i hi]

end

section
variable {s t : State} {x y : Nibble} (hmem : t.mem = s.mem) (hI : t.I = s.I)
  (hx : t.reg x = s.reg x) (hy : t.reg y = s.reg y)

include hmem hI in
/-- A sprite is read from memory at `I` alone. -/
theorem spriteSet_congr (r c : Nat) : spriteSet t r c = spriteSet s r c := by
  simp only [spriteSet, State.byte, State.ea, hmem, hI]

include hx hy in
/-- A sprite is placed by the two position registers alone. -/
theorem cellOf_congr (r c : Nat) : cellOf t x y r c = cellOf s x y r c := by
  simp only [cellOf, hx, hy]

include hmem hI hx hy

theorem toggles_congr (n : Nibble) : Toggles t x y n = Toggles s x y n := by
  funext i
  simp only [Toggles, spriteSet_congr hmem hI, cellOf_congr hx hy]

theorem rowsInRange_congr {n : Nat} : RowsInRange t x y n ↔ RowsInRange s x y n := by
  simp only [RowsInRange, State.ea, hI, spriteSet_congr hmem hI, cellOf_congr hx hy]

end

/-- Every instruction, completed or faulted, keeps the framebuffer canonical. -/
theorem exec_fb_wf {i : Instr} {s t : State} (h : exec i s = .next t) (hw : s.fb.wf = true) : t.fb.wf = true := by
  rcases exec_cases h with ⟨r, rfl⟩ | hc
  · exact hw
  · exact hc.fbWf hw

/-- Settles O36: the two draws invert the same cells, so each cell reads as before; canonical framebuffers that read
alike are equal. The second finds a cell lit where the first found it dark. -/
theorem drawingTwiceRestoresTheFramebuffer : Obligations.DrawingTwiceRestoresTheFramebuffer := by
  intro s t x y n hs hr ht hx hy
  obtain ⟨t', ht', hfirst⟩ := exec_drw_inverts hr
  obtain rfl : t' = t := Host.Outcome.next.inj (ht'.symm.trans ht)
  have hmem : t'.mem = s.mem := by rw [hfirst.frame]; rfl
  have hI : t'.I = s.I := by rw [hfirst.frame]; rfl
  obtain ⟨u, hu, hsecond⟩ := exec_drw_inverts ((rowsInRange_congr hmem hI hx hy).2 hr)
  rw [toggles_congr hmem hI hx hy] at hsecond
  have hlit := hfirst.exists_lit_iff (u' := after t' (.drw x y n)) fun _ => rfl
  refine ⟨u, hu, Framebuffer.eq_of_read ?canonical hs.fbWf ?cells, fun hd => ?flagSet, fun hd => ?flagClear⟩
  case canonical => exact exec_fb_wf hu (exec_fb_wf ht hs.fbWf)
  case cells => exact hfirst.pixel_twice hsecond fun _ => rfl
  case flagSet => exact hsecond.flagSet (hlit.2 hd)
  case flagClear => exact hsecond.flagClear (mt hlit.1 hd)

/-! ### Clearing the screen (R150) -/

/-- Settles O33: CLS's one write is the empty framebuffer, in which every cell reads dark. -/
theorem clearScreenDarkensEveryCell : Obligations.ClearScreenDarkensEveryCell :=
  ⟨selects_of_byteMask (fun _ => rfl) fun _ => layoutXKk_of_group, fun s ign =>
    ⟨{ after s (.cls ign) with fb := [] }, rfl, Framebuffer.read_nil, rfl⟩⟩

end Sys2Proof.Machine
end

section
/-! PROOFS. Keys and timers (45_keys_and_timers.md R160 to R168): the words that select each instruction, what the key
scan finds, and the state each instruction completes in or faults from. -/

namespace Sys2Proof.Machine

open Sys2Proof.Claim

/-! ### The key scan (R163) -/

/-- The scan is the library's search for the first `true`. -/
theorem lowestDown_eq_findIdx? (ks : List Bool) : lowestDown ks = ks.findIdx? id := by
  induction ks with
  | nil => rfl
  | cons k ks ih => cases k <;> simp [lowestDown, List.findIdx?_cons, ih]

/-- The lowest key that is down is what the scan finds. -/
theorem lowestDown_keys_eq_some {keys : Vector Bool 16} {k : Fin 16} (hk : keys[k] = true)
    (hlow : ∀ j : Fin 16, j < k → keys[j] = false) : lowestDown keys.toList = some k.val := by
  rw [lowestDown_eq_findIdx?, List.findIdx?_eq_some_iff_getElem]
  refine ⟨by simp, by simpa using hk, fun j hj => ?below⟩
  case below => simpa using hlow ⟨j, hj.trans k.isLt⟩ hj

theorem lowestDown_keys_eq_none {keys : Vector Bool 16} (hup : ∀ k : Fin 16, keys[k] = false) :
    lowestDown keys.toList = none := by
  refine lowestDown_eq_none_iff.2 fun hmem => ?_
  obtain ⟨k, hk, hdown⟩ := Vector.mem_iff_getElem.1 (Vector.mem_toList_iff.1 hmem)
  exact Bool.false_ne_true ((hup ⟨k, hk⟩).symm.trans hdown)

/-- Fx0A writes the number of the key that the scan finds. -/
theorem exec_ldVxK_of_down {s : State} (x : Nibble) {k : Nat} (h : lowestDown s.keys.toList = some k) :
    exec (.ldVxK x) s = .next ((after s (.ldVxK x)).setReg x (BitVec.ofNat 8 k)) := by
  change execLdVxK x s = _
  refine complete_of_ok ?_
  rw [State.fetched_keys, h]
  rfl

/-- Fx0A moves `pc` back over itself when the scan finds no key. -/
theorem exec_ldVxK_of_up {s : State} (x : Nibble) (h : lowestDown s.keys.toList = none) :
    exec (.ldVxK x) s = .next { after s (.ldVxK x) with pc := s.pc } := by
  have hback : s.pc + 2#16 - 2#16 = s.pc := BitVec.add_sub_cancel _ _
  change execLdVxK x s = _
  refine complete_of_ok ?_
  rw [State.fetched_keys, h, State.fetched_pc, hback]
  rfl

/-- Settles O38: the scan finds the lowest key that is down, or none; the word is followed in either case. -/
theorem waitForKeyTakesTheLowest : Obligations.WaitForKeyTakesTheLowest :=
  ⟨selects_of_byteMask (fun _ => rfl) fun _ => layoutXKk_of_group, fun _ x =>
    ⟨fun _ hk hlow => writesReg_of_exec (exec_ldVxK_of_down x (lowestDown_keys_eq_some hk hlow)),
      fun hup => exec_ldVxK_of_up x (lowestDown_keys_eq_none hup)⟩⟩

/-! ### The key skips (R160 to R162) -/

/-- Two pseudocodes that agree on the fetched state make the same step. -/
theorem complete_congr {i : Instr} {body body' : State → Except Raise State} {s : State}
    (h : body (s.fetched (encode i)) = body' (s.fetched (encode i))) : complete i body s = complete i body' s := by
  rw [complete, complete, h]

section
variable {s : State} {x : Nibble}

theorem keyRead_fetched_of_eq {k : Fin 16} (hk : (s.reg x).toNat = k.val) (w : Word) :
    keyRead (s.fetched w) ((s.fetched w).reg x).toNat = .ok s.keys[k] :=
  keyRead_ok_iff.2 ⟨hk ▸ k.isLt, by simp [hk]⟩

theorem keyRead_fetched_of_gt (hk : (s.reg x).toNat > 15) (w : Word) :
    keyRead (s.fetched w) ((s.fetched w).reg x).toNat = .error ⟨.key, (s.reg x).toNat⟩ :=
  keyRead_error_iff.2 ⟨hk, rfl⟩

/-- With its key number in range, SKP is a skip on the key's flag. -/
theorem exec_skp_of_eq {k : Fin 16} (hk : (s.reg x).toNat = k.val) :
    exec (.skp x) s = .next { after s (.skp x) with
      pc := if s.keys[k] = true then s.pc + 4#16 else s.pc + 2#16 } := by
  change execSkp x s = _
  refine (complete_congr ?_).trans (complete_skipIf (c := fun t => t.keys[k]) Iff.rfl)
  rw [keyRead_fetched_of_eq hk]
  rfl

/-- With its key number in range, SKNP is a skip on the key's flag negated. -/
theorem exec_sknp_of_eq {k : Fin 16} (hk : (s.reg x).toNat = k.val) :
    exec (.sknp x) s = .next { after s (.sknp x) with
      pc := if s.keys[k] = false then s.pc + 4#16 else s.pc + 2#16 } := by
  change execSknp x s = _
  refine (complete_congr ?_).trans (complete_skipIf (c := fun t => !t.keys[k]) (Bool.not_eq_true' _).to_iff)
  rw [keyRead_fetched_of_eq hk]
  rfl

/-- SKP faults with the whole byte where that is no number of a key. -/
theorem exec_skp_of_gt (hk : (s.reg x).toNat > 15) :
    exec (.skp x) s = .next (faulted s .key (s.reg x).toNat) := by
  change execSkp x s = .next (s.takeFault ⟨.key, (s.reg x).toNat⟩)
  refine complete_of_error ?_
  rw [keyRead_fetched_of_gt hk]

/-- So does SKNP. -/
theorem exec_sknp_of_gt (hk : (s.reg x).toNat > 15) :
    exec (.sknp x) s = .next (faulted s .key (s.reg x).toNat) := by
  change execSknp x s = .next (s.takeFault ⟨.key, (s.reg x).toNat⟩)
  refine complete_of_error ?_
  rw [keyRead_fetched_of_gt hk]

end

/-- Settles O37: both read the key `V[x]`, which is one of the sixteen or a fault. -/
theorem keySkips : Obligations.KeySkips :=
  ⟨selects_of_byteMask (fun _ => rfl) fun _ => layoutXKk_of_group,
    selects_of_byteMask (fun _ => rfl) fun _ => layoutXKk_of_group, fun _ _ =>
      ⟨fun _ hk => ⟨exec_skp_of_eq hk, exec_sknp_of_eq hk⟩, fun hk => ⟨exec_skp_of_gt hk, exec_sknp_of_gt hk⟩⟩⟩

/-! ### The timer forms (R164 to R166) -/

/-- Settles O39: each form's one write is the copy. -/
theorem timerForms : Obligations.TimerForms :=
  ⟨selects_of_byteMask (fun _ => rfl) fun _ => layoutXKk_of_group,
    selects_of_byteMask (fun _ => rfl) fun _ => layoutXKk_of_group,
    selects_of_byteMask (fun _ => rfl) fun _ => layoutXKk_of_group, fun _ _ =>
      ⟨writesReg_of_exec rfl, rfl, rfl⟩⟩

end Sys2Proof.Machine
end

section
/-! PROOFS. The exception of the core and the host's surfaces (60_exceptions.md R180 to R200): a fault is precise, each
instruction raises what R181 lists for it, a draw reports its first access out of range, the timers tick, and the host
reads and writes its surfaces. -/

namespace Sys2Proof.Machine

open Sys2Proof.Claim

/-! ### The first access out of range of a draw (R187) -/

/-- A draw whose pseudocode raises from VF cleared latches the raise on the state before. -/
theorem exec_drw_faults {s : State} {x y n : Nibble} {c : Cause} {info : Nat}
    (h : drawRows n.toNat (startColumn (s.reg x)) (startRow (s.reg y))
      ((after s (.drw x y n)).setReg flagReg 0#8) = .error ⟨c, info⟩) :
    exec (.drw x y n) s = .next (faulted s c info) := by
  change execDrw x y n s = .next (s.takeFault ⟨c, info⟩)
  exact complete_of_error h

/-- Settles O35: the rows before `r`, and in row `r` the columns before `c`, are drawn without a raise; the access
after them raises. -/
theorem drawReportsTheFirstBadAccess : Obligations.DrawReportsTheFirstBadAccess := by
  intro s x y n r hn hr
  refine ⟨fun hb => ?byte, fun c hb hc hset hcell hbefore => ?cell⟩
  case byte => exact exec_drw_faults (drawRows_memRead (t := after s (.drw x y n)) .start hn hr hb)
  case cell =>
    exact exec_drw_faults (drawRows_fb (t := after s (.drw x y n)) .start hn hr hb hc hset hcell hbefore)

/-! ### Faults are precise (R182) -/

/-- Settles O47: a fetch that raises and an instruction that raises both end in `takeFault` of the state before, and
nothing else sets the latch; the core is halted after it. -/
theorem faultsArePrecise : Obligations.FaultsArePrecise := by
  intro s t hs h hf
  refine ⟨?_, step_of_halted hf⟩
  rcases step_cases s with ⟨hhalted, -⟩ | ⟨-, r, -, hstep⟩ | ⟨-, w, -, hstep⟩
  · exact absurd hs hhalted
  · cases hstep.symm.trans h
    exact ⟨r.sub, r.info, rfl⟩
  · rcases exec_cases (hstep.symm.trans h) with ⟨r, rfl⟩ | hc
    · exact ⟨r.sub, r.info, rfl⟩
    · exact absurd (hc.fault.trans hs) hf

/-! ### Which instruction raises which sub-cause (R181) -/

/-- An answer of pseudocode that leaves the latch as `l` where it completes, and raises one of `cs` where it does
not. -/
def RaisesOnly (cs : List Cause) (l : Option FaultRecord) : Except Raise State → Prop
  | .ok t => t.fault = l
  | .error r => r.sub ∈ cs

theorem raisesOnly_iff {cs : List Cause} {l : Option FaultRecord} {e : Except Raise State} :
    RaisesOnly cs l e ↔ (∀ t, e = .ok t → t.fault = l) ∧ ∀ r, e = .error r → r.sub ∈ cs := by
  cases e <;> simp [RaisesOnly]

/-- What a step latches is what its pseudocode raises. -/
theorem cause_mem_of_complete {i : Instr} {body : State → Except Raise State} {s t : State} {f : FaultRecord}
    {cs : List Cause} (hb : RaisesOnly cs s.fault (body (s.fetched (encode i)))) (hs : s.fault = none)
    (h : complete i body s = .next t) (hf : t.fault = some f) : f.cause ∈ cs := by
  obtain ⟨hok, hraise⟩ := raisesOnly_iff.1 hb
  rcases complete_next_iff.1 h with hbody | ⟨r, hbody, rfl⟩
  · exact absurd (hf.symm.trans ((hok t hbody).trans hs)) nofun
  · cases hf
    exact hraise r hbody

@[simp] theorem State.skipIf_fault (s : State) (c : Bool) : (s.skipIf c).fault = s.fault := by
  rw [State.skipIf_eq]

theorem storeLoop_raisesOnly (n : Nat) (b : Nat → State → Byte) (t : State) :
    RaisesOnly [.memWrite] t.fault (storeLoop n b t) := by
  refine raisesOnly_iff.2 ⟨fun u hu => ?_, fun r hr => List.mem_singleton.2 (storeLoop_raises hr)⟩
  rw [(storeLoop_frame hu).1]

theorem loadLoop_raisesOnly (n : Nat) (t : State) : RaisesOnly [.memRead] t.fault (loadLoop n t) := by
  refine raisesOnly_iff.2 ⟨fun u hu => ?_, fun r hr => List.mem_singleton.2 (loadLoop_raises hr)⟩
  rw [loadLoop_frame hu]

theorem drawRows_raisesOnly (n px py : Nat) (t : State) :
    RaisesOnly [.memRead, .fb] t.fault (drawRows n px py t) := by
  refine raisesOnly_iff.2 ⟨fun u hu => ?_, fun r hr => ?_⟩
  · rw [(drawRows_keeps hu).1]
  · simpa using drawRows_raises hr

/-- Settles O48: an access primitive raises its own sub-cause, a loop the sub-causes of its accesses, and the other
pseudocodes raise nothing. -/
theorem onlyTheListedInstructionsRaise : Obligations.OnlyTheListedInstructionsRaise := by
  intro i s t f hs h hf
  cases i <;> dsimp only [exec] at h
  all_goals refine cause_mem_of_complete ?_ hs h hf
  case cls | sys | jp | ldImm | addImm | orReg | andReg | xorReg | addReg | subReg | shr | subnReg | shl | ldI | rnd
      | ldVxDt | ldDtVx | ldStVx | addI | ldF | nop8 | nope | nopf => exact rfl
  case seImm | sneImm | seReg | sneReg => exact State.skipIf_fault _ _
  case ldReg | jpV0 | ldVxK => split <;> exact rfl
  case ret =>
    split
    · exact rfl
    · next r hr => simp [RaisesOnly, canRaise, (stackRead_error_iff.1 hr).2]
  case call =>
    split
    · next u hu =>
      obtain ⟨hlt, rfl⟩ := stackWrite_ok_iff.1 hu
      exact rfl
    · next r hr => simp [RaisesOnly, canRaise, (stackWrite_error_iff.1 hr).2]
  case skp | sknp =>
    split
    · exact State.skipIf_fault _ _
    · next r hr => simp [RaisesOnly, canRaise, (keyRead_error_iff.1 hr).2]
  case drw => exact drawRows_raisesOnly ..
  case ldB | stRegs => exact storeLoop_raisesOnly ..
  case ldRegs =>
    split
    · next hdir =>
      rw [State.fetched_cfg] at hdir
      rw [canRaise, if_pos hdir]
      exact storeLoop_raisesOnly ..
    · next hdir =>
      rw [State.fetched_cfg] at hdir
      rw [canRaise, if_neg (by rw [hdir]; nofun)]
      exact loadLoop_raisesOnly ..

/-! ### The host's surfaces (R196 to R200) -/

theorem toNat_tickTimer (b : Byte) : (tickTimer b).toNat = b.toNat - 1 := by
  unfold tickTimer
  split <;> bv_omega

/-- Settles O40: each timer ticks on its own, and no other field is written. -/
theorem tickDecrementsBothTimers : Obligations.TickDecrementsBothTimers :=
  fun s => ⟨toNat_tickTimer s.dt, toNat_tickTimer s.st, rfl, fun _ => rfl⟩

theorem State.observeFramebuffer_length (s : State) : s.observeFramebuffer.length = 2048 := by
  simp [State.observeFramebuffer]

theorem State.observeFramebuffer_getElem? (s : State) {i : Nat} (hi : i < 2048) :
    s.observeFramebuffer[i]? = some (s.pixel i) := by
  simp [State.observeFramebuffer, hi]

theorem State.observeFault_of_none {s : State} (h : s.fault = none) : s.observeFault = none := by
  rw [State.observeFault, h, Option.map_none]

/-- Settles O41: each event is a move from every session, by its definition; the framebuffer is read cell by cell, and
the latch as the code of its sub-cause. -/
theorem hostReadsAndWritesItsSurfaces : Obligations.HostReadsAndWritesItsSurfaces :=
  fun z _ => ⟨rfl, rfl, z.state.observeFramebuffer_length, fun _ => z.state.observeFramebuffer_getElem?, rfl, rfl,
    rfl, State.observeFault_of_none, fun _ _ => ⟨rfl, rfl, rfl, rfl, rfl, rfl, rfl⟩⟩

end Sys2Proof.Machine
end

section
/-! PROOFS. The boot (70_reset_and_hazards.md R213 to R219): what the two loads write, that their order does not
matter, and which moves come before the first step. -/

namespace Sys2Proof.Machine

/-! ### The loads -/

theorem State.byte_writeBlock (s : State) (a : Nat) (bs : List Byte) (b : Nat) :
    ({ s with mem := s.mem.writeBlock a bs } : State).byte b =
      if a ≤ b ∧ b < a + bs.length then bs.getD (b - a) 0#8 else s.byte b :=
  Memory.read_writeBlock s.mem a bs b

/-- R215, byte by byte. -/
theorem State.byte_loadGlyphs (s : State) (a : Nat) :
    s.loadGlyphs.byte a =
      if 0x50 ≤ a ∧ a < 0xA0 then s.cfg.glyphTable.toList.getD (a - 0x50) 0#8 else s.byte a := by
  rw [State.loadGlyphs, State.byte_writeBlock, Vector.length_toList]

/-- Settles O42: the 80 glyph bytes read as the table, whatever memory held before. -/
theorem loadGlyphsWritesTheTable : Obligations.LoadGlyphsWritesTheTable := by
  refine fun s => ⟨fun j => ?table, fun a ha => ?others, rfl, fun a => ?again⟩
  case table =>
    have hj : 0x50 ≤ 0x50 + j.val ∧ 0x50 + j.val < 0xA0 := by omega
    rw [State.byte_loadGlyphs, if_pos hj, Nat.add_sub_cancel_left]
    simp [List.getD]
  case others => rw [State.byte_loadGlyphs, if_neg (by omega)]
  case again =>
    have hcfg : s.loadGlyphs.cfg = s.cfg := rfl
    rw [State.byte_loadGlyphs s.loadGlyphs, State.byte_loadGlyphs s, hcfg]
    split <;> rfl

theorem State.loadProgram_of_empty {s : State} {bytes : List Byte} (h : bytes.length = 0) :
    s.loadProgram bytes = .error .emptyProgram := by
  rw [State.loadProgram, if_pos h]

theorem State.loadProgram_of_tooLarge {s : State} {bytes : List Byte} (h : bytes.length > 3584) :
    s.loadProgram bytes = .error .programTooLarge := by
  rw [State.loadProgram, if_neg (by omega), if_pos h]

theorem State.loadProgram_of_fits {s : State} {bytes : List Byte} (h1 : 1 ≤ bytes.length)
    (h2 : bytes.length ≤ 3584) :
    s.loadProgram bytes = .ok { s with mem := s.mem.writeBlock progBase bytes } :=
  State.loadProgram_ok_iff.2 ⟨⟨h1, h2⟩, rfl⟩

/-- Before the first step a failing `load_program` is a move that changes nothing (R217, assumption log 37). -/
theorem Session.apply_loadProgram_of_fails {s : State} {bytes : List Byte}
    (h : ¬(1 ≤ bytes.length ∧ bytes.length ≤ 3584)) (g p : Bool) :
    Session.apply (.loadProgram bytes) ⟨s, .boot g p⟩ = some ⟨s, .boot g p⟩ := by
  have hfails : ∃ r, s.loadProgram bytes = .error r := by
    rcases Nat.eq_zero_or_pos bytes.length with h0 | h0
    · exact ⟨_, State.loadProgram_of_empty h0⟩
    · exact ⟨_, State.loadProgram_of_tooLarge (by omega)⟩
  obtain ⟨r, hr⟩ := hfails
  simp only [Session.apply, hr]

/-- Settles O43: the three cases of the length, and the bytes that a block written to memory reads as. -/
theorem loadProgramCopiesOrFails : Obligations.LoadProgramCopiesOrFails := by
  refine fun s bytes => ⟨State.loadProgram_of_empty, State.loadProgram_of_tooLarge,
    fun h1 h2 => ⟨_, State.loadProgram_of_fits h1 h2, fun j hj => ?copied, fun a ha => ?others, rfl⟩,
    fun g h => Session.apply_loadProgram_of_fails (by omega) g false⟩
  case copied =>
    have hin : progBase ≤ progBase + j ∧ progBase + j < progBase + bytes.length := by omega
    rw [State.byte_writeBlock, if_pos hin, Nat.add_sub_cancel_left]
    simp [List.getD, hj]
  case others => rw [State.byte_writeBlock, if_neg (by simp only [progBase]; omega)]

/-! ### The order of the loads -/

/-- Two blocks inside memory that do not overlap may be written in either order. -/
theorem Memory.writeBlock_comm {m : Memory} (hm : m.wf = true) {a b : Nat} {as bs : List Byte}
    (hab : a + as.length ≤ b) (hb : b + bs.length ≤ 4096) :
    (m.writeBlock a as).writeBlock b bs = (m.writeBlock b bs).writeBlock a as := by
  have ha : a + as.length ≤ 4096 := by omega
  refine Memory.eq_of_read (Memory.wf_writeBlock b bs hb (Memory.wf_writeBlock a as ha hm))
    (Memory.wf_writeBlock a as ha (Memory.wf_writeBlock b bs hb hm)) fun k => ?_
  simp only [Memory.read_writeBlock]
  by_cases hk : a ≤ k ∧ k < a + as.length
  · have hkb : ¬(b ≤ k ∧ k < b + bs.length) := by omega
    rw [if_neg hkb, if_pos hk, if_pos hk]
  · rw [if_neg hk, if_neg hk]

theorem Session.apply_loadProgram_of_fits {s : State} {bytes : List Byte} (h1 : 1 ≤ bytes.length)
    (h2 : bytes.length ≤ 3584) (g : Bool) :
    Session.apply (.loadProgram bytes) ⟨s, .boot g false⟩ =
      some ⟨{ s with mem := s.mem.writeBlock progBase bytes }, .boot g true⟩ := by
  simp only [Session.apply, State.loadProgram_of_fits h1 h2]

/-- The state after reset and both loads, the glyphs first. -/
def State.booted (c : Config) (bytes : List Byte) : State :=
  { State.resetWith c with mem := (State.resetWith c).loadGlyphs.mem.writeBlock progBase bytes }

/-- R213, byte by byte. -/
theorem State.byte_booted (c : Config) (bytes : List Byte) (a : Nat) :
    (State.booted c bytes).byte a =
      if 0x50 ≤ a ∧ a < 0xA0 then c.glyphTable.toList.getD (a - 0x50) 0#8
      else if 0x200 ≤ a ∧ a < 0x200 + bytes.length then bytes.getD (a - 0x200) 0#8 else 0#8 := by
  have hblock := State.byte_writeBlock (State.resetWith c).loadGlyphs progBase bytes a
  rw [State.byte_loadGlyphs] at hblock
  refine hblock.trans ?_
  by_cases hg : 0x50 ≤ a ∧ a < 0xA0
  · have hp : ¬(progBase ≤ a ∧ a < progBase + bytes.length) := by simp only [progBase]; omega
    rw [if_pos hg, if_pos hg, if_neg hp]
    rfl
  · rw [if_neg hg, if_neg hg, State.byte_resetWith]

/-- With the program first, memory ends as with the glyphs first. -/
theorem State.booted_eq_programFirst (c : Config) {bytes : List Byte} (h : bytes.length ≤ 3584) :
    State.booted c bytes =
      ({ State.resetWith c with mem := (State.resetWith c).mem.writeBlock progBase bytes } : State).loadGlyphs := by
  have hglyphs : glyphBase + c.glyphTable.toList.length ≤ progBase := by rw [Vector.length_toList]; decide
  have hprogram : progBase + bytes.length ≤ 4096 := by simp only [progBase]; omega
  have hmem := Memory.writeBlock_comm (Memory.wf_reset c) hglyphs hprogram
  exact congrArg (fun m => { State.resetWith c with mem := m }) hmem

/-- Settles O44: both orders end in `State.booted`, since the two ranges do not overlap and memory is canonical. -/
theorem bootOrderDoesNotMatter : Obligations.BootOrderDoesNotMatter := by
  refine fun c bytes h1 h2 => ⟨⟨State.booted c bytes, .boot true true⟩, ?glyphsFirst, ?programFirst, rfl, rfl,
    State.byte_booted c bytes⟩
  case glyphsFirst =>
    have hglyphs : (Session.start c).apply .loadGlyphs =
        some ⟨(State.resetWith c).loadGlyphs, .boot true false⟩ := rfl
    simp only [Session.run, hglyphs, Session.apply_loadProgram_of_fits h1 h2]
    rfl
  case programFirst =>
    rw [State.booted_eq_programFirst c h2]
    simp only [Session.run, Session.start, Session.apply_loadProgram_of_fits h1 h2]
    rfl

/-! ### The moves of the host -/

/-- A load is a move of the boot only, and does not end it. -/
theorem Session.apply_load_phase {z z' : Session} {e : Event}
    (he : e = .loadGlyphs ∨ ∃ bytes, e = .loadProgram bytes) (h : z.apply e = some z') :
    z.phase ≠ .running ∧ z'.phase ≠ .running := by
  rcases he with rfl | ⟨bytes, rfl⟩
  · dsimp only [Session.apply] at h
    split at h
    · next hz => cases h; simp [hz]
    · cases h
  · dsimp only [Session.apply] at h
    split at h
    · cases h
    · next hz _ => cases h; simp [hz]
    · next hz _ => cases h; simp [hz]
    · cases h

/-- A step is a move once the boot is complete, and the core runs after it. -/
theorem Session.apply_step_phase {z z' : Session} {b : Byte} (h : z.apply (.step b) = some z') :
    (z.phase = .boot true true ∨ z.phase = .running) ∧ z'.phase = .running := by
  dsimp only [Session.apply] at h
  split at h
  · next hz => split at h <;> cases h; exact ⟨.inl hz, rfl⟩
  · next hz => split at h <;> cases h; exact ⟨.inr hz, rfl⟩
  · cases h

/-- Settles O45: by the kind of event, and for a second `load_program` by its length. -/
theorem bootComesBeforeTheFirstStep : Obligations.BootComesBeforeTheFirstStep := by
  refine ⟨fun z z' e h => ?moves, fun s g bytes => ?second⟩
  case moves =>
    cases e with
    | reset => cases h; simp
    | loadGlyphs => simp [Session.apply_load_phase (.inl rfl) h]
    | loadProgram bytes => simp [Session.apply_load_phase (.inr ⟨bytes, rfl⟩) h]
    | step b => simp [Session.apply_step_phase h]
    | setKeys | tick | observeFramebuffer | observeTimers | observeFault => cases h; simp
  case second =>
    split
    · next hlen => simp only [Session.apply, State.loadProgram_of_fits hlen.1 hlen.2]
    · next hlen => exact Session.apply_loadProgram_of_fails hlen g true

end Sys2Proof.Machine
end

section
/-! PROOFS. The default end of a run, a self-jump, is a fixed point (70_reset_and_hazards.md R226). -/

namespace Sys2Proof.Machine

open Sys2Proof.Claim

theorem State.meets_selfJump_iff {s : State} :
    s.meets .selfJump = true ↔ s.pc.toNat ≤ 4094 ∧ ∃ nnn : Imm12, nnn.toNat = s.pc.toNat ∧
      s.byte s.pc.toNat ++ s.byte (s.pc.toNat + 1) = encode (.jp nnn) := by
  rw [State.meets, State.fetchPasses_iff]
  simp only [fetch_ok_iff, isJumpTo_iff]
  exact ⟨fun ⟨_, ⟨hpc, hw⟩, nnn, hn, hj⟩ => ⟨hpc, nnn, hn, hw.symm.trans hj⟩,
    fun ⟨hpc, nnn, hn, hj⟩ => ⟨_, ⟨hpc, rfl⟩, nnn, hn, hj⟩⟩

/-- A change outside the configuration, the latch, `pc` and memory keeps an end of run by the self-jump. -/
theorem State.endOfRun_selfJump_keep {s t : State} (hs : s.cfg.endOfRun = .selfJump) (h : s.endOfRun = true)
    (hcfg : t.cfg = s.cfg) (hfault : t.fault = s.fault) (hpc : t.pc = s.pc) (hmem : t.mem = s.mem) :
    t.endOfRun = true := by
  have hmeets : t.meets .selfJump = s.meets .selfJump := by
    rw [Bool.eq_iff_iff, State.meets_selfJump_iff, State.meets_selfJump_iff, State.byte, State.byte,
      State.byte, State.byte, hpc, hmem]
  rw [State.endOfRun, hs] at h
  rwa [State.endOfRun, hcfg, hs, hfault, hmeets]

/-- A jump to its own address writes `ir` alone, the model's random input apart. -/
theorem exec_jp_self {s : State} {nnn : Imm12} (h : nnn.toNat = s.pc.toNat) :
    exec (.jp nnn) s = .next { s with ir := encode (.jp nnn), rnd := none, draws := s.draws + 1 } := by
  obtain ⟨-, hjp⟩ := jumpLoadsTheTarget
  have hpc : nnn.zeroExtend 16 = s.pc := by bv_omega
  rw [hjp, hpc]
  rfl

/-- Settles O58: at an end of run the step executes the jump to `pc`, which leaves everything that the end of run
depends on as it was; so do a tick and the keys. -/
theorem endOfRunIsAFixedPoint : Obligations.EndOfRunIsAFixedPoint := by
  refine ⟨rfl, fun s hs => ⟨fun hf => ?iff, fun h => ⟨?step, ?tick, fun k => ?keys⟩⟩⟩
  case iff => rw [State.endOfRun_of_running hf, hs, State.meets_selfJump_iff]
  case step =>
    have hf : s.fault = none := by
      by_contra hne
      simp [State.endOfRun_of_fault hne] at h
    have hmeets : s.meets .selfJump = true := by rwa [← hs, ← State.endOfRun_of_running hf]
    obtain ⟨hpc, nnn, hn, hj⟩ := State.meets_selfJump_iff.1 hmeets
    have hstep : step s = exec (.jp nnn) s := by
      rw [step_of_fetch_ok hf (fetch_ok_iff.2 ⟨hpc, hj.symm⟩), decodeWord_encode rfl]
    rw [hj]
    exact ⟨_, hstep.trans (exec_jp_self hn), State.endOfRun_selfJump_keep hs h rfl rfl rfl rfl, rfl⟩
  case tick => exact State.endOfRun_selfJump_keep hs h rfl rfl rfl rfl
  case keys => exact State.endOfRun_selfJump_keep hs h rfl rfl rfl rfl

end Sys2Proof.Machine
end
